-- ==== Sys2Proof/Word.lean ====
section
/-! DEFINITION. The words of the block's interface: a byte of host storage, the 65-bit request word, and the two
records of signals, the request (inputs) and the response (outputs). -/

namespace Sys2Proof

/-- One byte of the HOST's storage. The block itself never sees bytes (`20_memory.md` R33). -/
abbrev Byte := BitVec 8

/-- The request word `REQ`, 65 bits: `REQ[64] = fmt`, `REQ[63:0] = in_bits` (`30_encoding.md` R50). -/
abbrev ReqWord := BitVec 65

/-- A request: the values of the two input signals at one instant (`10_state.md` R20, `30_encoding.md` R50).
Every input bit is 0 or 1 (`70_reset_and_hazards.md` R121, log entry 5). -/
structure Request where
  /-- format select: 0 is the 32-bit format, 1 the 64-bit format -/
  fmt : BitVec 1
  /-- the operand's storage bits; bits 63:32 are ignored when `fmt` is 0 -/
  inBits : BitVec 64
deriving DecidableEq, Repr

/-- A response: the values of the six output signals for one request (`10_state.md` R21), 138 bits in all. -/
structure Response where
  /-- 32 or 64 -/
  width : BitVec 7
  /-- the operand, zero-extended in the 32-bit format -/
  raw : BitVec 64
  /-- the sign bit -/
  sign : BitVec 1
  /-- the biased exponent field, zero-extended in the 32-bit format -/
  exponent : BitVec 11
  /-- the fraction field, zero-extended in the 32-bit format -/
  fraction : BitVec 52
  /-- the class code of `30_encoding.md` R62 -/
  cls : BitVec 3
deriving DecidableEq, Repr

end Sys2Proof
end

