-- ==== Sys2Proof/Syntax.lean ====
section
/-! DEFINITION. The operations, one constructor per row of spec/opcode_table.json. -/

namespace Sys2Proof

/-- The block's two operations (`30_encoding.md` R59, `40_decode.md` R75). There is no other form: no immediate, no
modifier, no reserved, illegal or hint encoding (R57, R60). -/
inductive Instr where
  /-- `DEC32`: decode the 32-bit pattern `v`. `hi` is `in_bits[63:32]`, any value, not read (R58); it is kept as an
  operand so that no bit of the request word is dropped (log entry 7). -/
  | dec32 (hi v : BitVec 32)
  /-- `DEC64`: decode the 64-bit pattern `v`. -/
  | dec64 (v : BitVec 64)
deriving DecidableEq, Repr

end Sys2Proof
end

