-- ==== Sys2Proof/Config.lean ====
section
/-! DEFINITION. The two formats and their constants (`00_scope.md` R5), the five classes, the decoded record, and the
one open parameter of the spec, the host's byte order (R6). There is no free value: the spec leaves no output bit open
(`93_implementation_defined.md` section 1). -/

namespace Sys2Proof

/-- The two formats in scope, the 32-bit and the 64-bit format; there is no third (`00_scope.md` R2, R4). -/
inductive Format where
  | f32
  | f64
deriving DecidableEq, Repr

/-- `W`: width of the value and of `raw`. -/
abbrev Format.W : Format → Nat
  | .f32 => 32
  | .f64 => 64

/-- `EW`: width of the exponent field. -/
abbrev Format.EW : Format → Nat
  | .f32 => 8
  | .f64 => 11

/-- `FW`: width of the fraction field, the source's `fraction_width`. -/
abbrev Format.FW : Format → Nat
  | .f32 => 23
  | .f64 => 52

/-- `SIGN_POS`: bit position of the sign. -/
abbrev Format.signPos : Format → Nat
  | .f32 => 31
  | .f64 => 63

/-- `EXP_HI`: highest bit position of the exponent field. -/
abbrev Format.expHi : Format → Nat
  | .f32 => 30
  | .f64 => 62

/-- `EXP_LO`: lowest bit position of the exponent field, also the right-shift amount. -/
abbrev Format.expLo : Format → Nat
  | .f32 => 23
  | .f64 => 52

/-- `FRAC_HI`: highest bit position of the fraction field. -/
abbrev Format.fracHi : Format → Nat
  | .f32 => 22
  | .f64 => 51

/-- `FRAC_LO`: lowest bit position of the fraction field. -/
abbrev Format.fracLo : Format → Nat
  | .f32 => 0
  | .f64 => 0

/-- `EXP_MASK`: mask applied to `raw >> EXP_LO`. -/
abbrev Format.expMask : Format → Nat
  | .f32 => 0xFF
  | .f64 => 0x7FF

/-- `FRAC_MASK`: mask applied to `raw`. -/
abbrev Format.fracMask : Format → Nat
  | .f32 => 0x7FFFFF
  | .f64 => 0xFFFFFFFFFFFFF

/-- `E_MAX`: the all-ones value of the exponent field; used only by the classification. -/
abbrev Format.eMax : Format → Nat
  | .f32 => 255
  | .f64 => 2047

/-- `BIAS`: informative; no operation of the block uses it (`40_decode.md` R74). -/
abbrev Format.bias : Format → Nat
  | .f32 => 127
  | .f64 => 1023

/-- Bytes of host storage that hold one value, `F/8` (`20_memory.md` R34). -/
abbrev Format.bytes : Format → Nat
  | .f32 => 4
  | .f64 => 8

/-- The five classes of the source's table (`41_classify.md` R80). The codes 5, 6, 7 cannot be expressed
(`93_implementation_defined.md` V2). -/
inductive FpClass where
  | zero
  | subnormal
  | normal
  | infinity
  | nan
deriving DecidableEq, Repr

/-- The result of one decode, `FloatBits`, with exactly the member widths of the format (`10_state.md` R16), so that
the range invariants of R17 hold by typing. The member `width` is `FloatBits.width`. -/
structure FloatBits (F : Format) where
  /-- the value's storage as an unsigned integer; purely a bit container -/
  raw : BitVec F.W
  /-- 0 = positive, 1 = negative -/
  sign : BitVec 1
  /-- biased exponent field, no bias subtracted -/
  exponent : BitVec F.EW
  /-- trailing significand bits, no implicit leading bit added -/
  fraction : BitVec F.FW
deriving DecidableEq, Repr

/-- `FloatBits` of the 32-bit format. -/
abbrev FloatBits32 := FloatBits .f32

/-- `FloatBits` of the 64-bit format. -/
abbrev FloatBits64 := FloatBits .f64

/-- `HOST_BYTE_ORDER`, the spec's one open parameter (`00_scope.md` R6, `92_eei_decisions.md` D22): an argument of the
host-side helper `BytesToRaw` and of nothing else. -/
inductive HostByteOrder where
  | little
  | big
deriving DecidableEq, Repr

end Sys2Proof
end

