-- ==== Sys2Proof/Machine/Flags.lean ====
section
/-! DEFINITION. The block has no flags (`10_state.md` R13). What stands in their place is the classification, a
combinational function of the two extracted fields (`41_classify.md` R80 to R82), and its code on the output `cls`
(`30_encoding.md` R62). -/

namespace Sys2Proof

/-- The 3-bit code of a class (`30_encoding.md` R62). -/
def FpClass.code : FpClass → BitVec 3
  | .zero => 0#3
  | .subnormal => 1#3
  | .normal => 2#3
  | .infinity => 3#3
  | .nan => 4#3

namespace Machine

/-- `CLASS_F` (`41_classify.md` R80): the class of an exponent and a fraction field. It does not see the sign (R85). -/
def classify (F : Format) (e : BitVec F.EW) (f : BitVec F.FW) : FpClass :=
  if e = 0 ∧ f = 0 then .zero
  else if e = 0 ∧ f ≠ 0 then .subnormal
  else if e = BitVec.ofNat F.EW F.eMax ∧ f = 0 then .infinity
  else if e = BitVec.ofNat F.EW F.eMax ∧ f ≠ 0 then .nan
  else .normal

/-- `CLASS32` (`41_classify.md` R81). -/
def class32 (e : BitVec 8) (f : BitVec 23) : FpClass := classify .f32 e f

/-- `CLASS64` (`41_classify.md` R82). -/
def class64 (e : BitVec 11) (f : BitVec 52) : FpClass := classify .f64 e f

end Machine

end Sys2Proof
end

