-- ==== Sys2Proof/Machine/Operands.lean ====
section
/-! DEFINITION. Field extraction (`40_decode.md` R70, R72, R73) and reconstruction (`42_laws.md` R90). All values are
unsigned bit vectors and every right shift is logical (R71). -/

namespace Sys2Proof

/-- The member `width` of a `FloatBits`: the constant 32 or 64 of its format (`10_state.md` R16). -/
def FloatBits.width {F : Format} (_ : FloatBits F) : Nat := F.W

namespace Machine

/-- `EXTRACT_F` (`40_decode.md` R70): storage taken bit for bit (`20_memory.md` R31), then the three fields by fixed
shifts and masks (`30_encoding.md` R56). -/
def extract (F : Format) (v : BitVec F.W) : FloatBits F where
  raw := v
  sign := ((v >>> (F.W - 1)) &&& 1#F.W).setWidth 1
  exponent := ((v >>> F.FW) &&& BitVec.ofNat F.W F.expMask).setWidth F.EW
  fraction := (v &&& BitVec.ofNat F.W F.fracMask).setWidth F.FW

/-- `DEC32` of the abstract layer (`40_decode.md` R72). -/
def dec32 (v : BitVec 32) : FloatBits32 := extract .f32 v

/-- `DEC64` of the abstract layer (`40_decode.md` R73). -/
def dec64 (v : BitVec 64) : FloatBits64 := extract .f64 v

/-- The sign's term of the partition, `zext_W(s) << (W-1)` (`42_laws.md` R92). -/
def signTerm (F : Format) (s : BitVec 1) : BitVec F.W := s.setWidth F.W <<< (F.W - 1)

/-- The exponent's term of the partition, `zext_W(e) << FW`. -/
def exponentTerm (F : Format) (e : BitVec F.EW) : BitVec F.W := e.setWidth F.W <<< F.FW

/-- The fraction's term of the partition, `zext_W(f)`. -/
def fractionTerm (F : Format) (f : BitVec F.FW) : BitVec F.W := f.setWidth F.W

/-- `PACK_F` (`42_laws.md` R90): the pattern with the three given fields. No operation of the block performs it. -/
def pack (F : Format) (s : BitVec 1) (e : BitVec F.EW) (f : BitVec F.FW) : BitVec F.W :=
  signTerm F s ||| exponentTerm F e ||| fractionTerm F f

/-- `PACK32`. -/
def pack32 (s : BitVec 1) (e : BitVec 8) (f : BitVec 23) : BitVec 32 := pack .f32 s e f

/-- `PACK64`. -/
def pack64 (s : BitVec 1) (e : BitVec 11) (f : BitVec 52) : BitVec 64 := pack .f64 s e f

/-- The pattern with its top bit inverted, `v ^ (1 << (W-1))`: negation as a property of patterns (`42_laws.md` R93,
log entry 13). -/
def negate (F : Format) (v : BitVec F.W) : BitVec F.W := v ^^^ (1#F.W <<< (F.W - 1))

end Machine

end Sys2Proof
end

