-- ==== Sys2Proof/Machine/Ports.lean ====
section
/-! DEFINITION. The port layer: a decoded record on the shared output signals (`10_state.md` R21, R23; `30_encoding.md`
R54, R55), the record read back from them, and the combinational function of the block, `RESP` (`40_decode.md` R76).
The port widths and codes are the spec's own decisions D2 to D8 (log entry 9). -/

namespace Sys2Proof

/-- `in_bits[31:0]`. -/
def Request.lo (q : Request) : BitVec 32 := q.inBits.extractLsb' 0 32

/-- `in_bits[63:32]`. -/
def Request.hi (q : Request) : BitVec 32 := q.inBits.extractLsb' 32 32

namespace Machine

/-- A record on the output signals: each member zero-extended to the width of its port, the `width` member as a 7-bit
number, and the code of the class of the two fields (`30_encoding.md` R54, R55, R57, R64; `41_classify.md` R84). -/
def toPorts {F : Format} (r : FloatBits F) : Response where
  width := BitVec.ofNat 7 r.width
  raw := r.raw.setWidth 64
  sign := r.sign
  exponent := r.exponent.setWidth 11
  fraction := r.fraction.setWidth 52
  cls := (classify F r.exponent r.fraction).code

/-- The exact-width record read back from the output signals by truncation (`10_state.md` R23). -/
def ofPorts (F : Format) (p : Response) : FloatBits F where
  raw := p.raw.setWidth F.W
  sign := p.sign
  exponent := p.exponent.setWidth F.EW
  fraction := p.fraction.setWidth F.FW

/-- `RESP` (`40_decode.md` R76): what the output signals carry while a request is on the input signals. For `fmt = 0`
the upper operand half is not read. -/
def resp (q : Request) : Response :=
  if q.fmt = 0#1 then toPorts (dec32 q.lo) else toPorts (dec64 q.inBits)

end Machine

end Sys2Proof
end

