-- ==== Sys2Proof/WellFormed.lean ====
section
/-! DEFINITION. Well-formedness. Every instruction is well-formed (`30_encoding.md` R60); a response is well-formed when
it obeys the laws of the output signals, check by check. -/

namespace Sys2Proof

/-- Every request is legal, for both operations and every operand (`30_encoding.md` R60, `60_exceptions.md` R100): the
operand widths are in the types and nothing else is to be checked. -/
def Instr.wf : Instr → Bool
  | .dec32 _ _ => true
  | .dec64 _ => true

/-- `width` is 32 or 64 (`30_encoding.md` R61). -/
def Response.widthOk (p : Response) : Bool := p.width = 32#7 || p.width = 64#7

/-- `cls` is one of the codes 0 to 4 (`30_encoding.md` R61). -/
def Response.clsInRange (p : Response) : Bool := p.cls.toNat ≤ 4

/-- With `width` 32 the upper bits of `raw`, `exponent` and `fraction` are 0 (`30_encoding.md` R61). -/
def Response.paddingZero (p : Response) : Bool :=
  p.width ≠ 32#7 ||
    (p.raw.extractLsb' 32 32 = 0#32 && p.exponent.extractLsb' 8 3 = 0#3 && p.fraction.extractLsb' 23 29 = 0#29)

/-- The three fields are the partition of `raw`, in the format that `width` names (`42_laws.md` R96 (4)). -/
def Response.fieldsArePartition (p : Response) : Bool :=
  if p.width = 32#7 then
    p.sign ++ p.exponent.extractLsb' 0 8 ++ p.fraction.extractLsb' 0 23 = p.raw.extractLsb' 0 32
  else p.sign ++ p.exponent ++ p.fraction = p.raw

/-- `cls` is the code of the class of the two fields, with `E_MAX` of the format that `width` names
(`41_classify.md` R84). -/
def Response.clsOfFields (p : Response) : Bool :=
  p.cls =
    if p.width = 32#7 then
      (Machine.class32 (p.exponent.extractLsb' 0 8) (p.fraction.extractLsb' 0 23)).code
    else (Machine.class64 p.exponent p.fraction).code

/-- A response that the block can give: all five checks. -/
def Response.wf (p : Response) : Bool :=
  p.widthOk && p.clsInRange && p.paddingZero && p.fieldsArePartition && p.clsOfFields

end Sys2Proof
end

