-- ==== Sys2Proof/Decode.lean ====
section
/-! DEFINITION. The request word and the map from request words to operations (`30_encoding.md` R50, R51, R59), the
encoder written from the same tables, and the opcode table itself. Decoding is total on request words (R60); only a number
that is no 65-bit request word is refused, by name. -/

namespace Sys2Proof

/-- `REQ = {fmt, in_bits}` (`30_encoding.md` R50). -/
def Request.word (q : Request) : ReqWord := q.fmt ++ q.inBits

/-- The two signals of a request word: `fmt = REQ[64]`, `in_bits = REQ[63:0]`. -/
def Request.ofWord (w : ReqWord) : Request where
  fmt := w.extractLsb' 64 1
  inBits := w.extractLsb' 0 64

/-- The operation a request word selects (`30_encoding.md` R51, R59): `REQ[64] = 0` is `DEC32` of `REQ[31:0]`,
`REQ[64] = 1` is `DEC64` of `REQ[63:0]`. -/
def decode (w : ReqWord) : Instr :=
  if w.extractLsb' 64 1 = 0#1 then .dec32 (w.extractLsb' 32 32) (w.extractLsb' 0 32)
  else .dec64 (w.extractLsb' 0 64)

/-- The request word of an operation (`30_encoding.md` R59). -/
def encode : Instr → ReqWord
  | .dec32 hi v => 0#1 ++ hi ++ v
  | .dec64 v => 1#1 ++ v

/-- A row of the opcode table (`30_encoding.md` R59): a word belongs to it when its masked bits equal `bits`. -/
structure TableRow where
  mnemonic : String
  bits : ReqWord
  mask : ReqWord
deriving DecidableEq, Repr

/-- Row `DEC32`. -/
def dec32Row : TableRow where
  mnemonic := "DEC32"
  bits := 0x00000000000000000#65
  mask := 0x10000000000000000#65

/-- Row `DEC64`. -/
def dec64Row : TableRow where
  mnemonic := "DEC64"
  bits := 0x10000000000000000#65
  mask := 0x10000000000000000#65

/-- The opcode table, two rows. -/
def opcodeTable : List TableRow := [dec32Row, dec64Row]

/-- Whether a word belongs to a row. -/
def TableRow.selects (r : TableRow) (w : ReqWord) : Bool := w &&& r.mask = r.bits

/-- The row an instruction stands for. -/
def Instr.row : Instr → TableRow
  | .dec32 _ _ => dec32Row
  | .dec64 _ => dec64Row

/-- Why a number is not decoded. -/
inductive DecodeError where
  /-- A bit above `REQ[64]` is set: the number is no request word (the only refusal; log entry 8). -/
  | widerThanRequestWord
deriving DecidableEq, Repr

/-- The request word of a number, or the refusal by name. -/
def reqWordOfNat (w : Nat) : Except DecodeError ReqWord :=
  if w < 2 ^ 65 then .ok (BitVec.ofNat 65 w) else .error .widerThanRequestWord

/-- The number the host gives for a table row, bits above `nbits` being 0, as a request word. -/
def tableReqWord (nbits w : Nat) : Except DecodeError ReqWord := reqWordOfNat (w % 2 ^ nbits)

/-- What the decoder reads from a word whose bits are numbered as spec/opcode_table.json numbers them: bit 64 is `fmt`,
bits 63:0 are `in_bits` (log entry 8). -/
def decodeTableWord (nbits w : Nat) : Option Instr :=
  match tableReqWord nbits w with
  | .ok r => some (decode r)
  | .error _ => none

end Sys2Proof
end

