-- ==== Sys2Proof/Machine/State.lean ====
section
/-! DEFINITION. State, as plain data. The block itself has no architectural state (`10_state.md` R10 to R15): its state type
is the one-element type. The other three fields are the HOST's side of the interface (log entry 1): what is on the input
signals, which requests are still to be performed, which responses have been read. -/

namespace Sys2Proof.Machine

/-- The block's whole architectural state: the one-element type (`10_state.md` R10). -/
structure BlockState where
deriving DecidableEq, Repr

/-- The block together with the host's list of requests and responses. -/
structure State where
  /-- the block's own state; it has one value (`10_state.md` R10) -/
  block : BlockState
  /-- the request the host holds on the input signals; `none` before the first request (R20,
  `70_reset_and_hazards.md` R121; log entry 2) -/
  inputs : Option Request
  /-- the requests of the host's list not yet performed, in list order (`10_state.md` R12) -/
  pending : List Request
  /-- the responses read so far, oldest first: the observation of a run (`70_reset_and_hazards.md` R127) -/
  answered : List Response
deriving DecidableEq, Repr

/-- Faults: there is none. The block raises no exception for any input and a step has no fault outcome
(`60_exceptions.md` R100), so the type has no constructor; nobody can raise one (safe; log entry 12). -/
inductive Fault where
deriving DecidableEq, Repr

/-- Refusals: the block refuses nothing (`60_exceptions.md` R100). -/
inductive Refusal where
  /-- An instruction that has no meaning yet, rejected by name in `exec`. No arm uses it: both operations have their
  meaning. Raised by nobody; safe. -/
  | notModelled (mnemonic : String)
deriving DecidableEq, Repr

/-- Right after reset: there is no state to reset and no reset input (`10_state.md` R24, `70_reset_and_hazards.md` R120),
no request has been presented, none is pending and none has been answered (log entries 2 and 4). -/
def State.reset : State where
  block := ⟨⟩
  inputs := none
  pending := []
  answered := []

end Sys2Proof.Machine
end

