-- ==== Sys2Proof/Machine/Ops.lean ====
section
/-! DEFINITION. The named operations over State: presenting a request, reading a response, the output signals, fetching the
host's next request, loading a request in front of the list. There is no register or memory to read or write
(`10_state.md` R11, `20_memory.md` R30), and no taking of an exception and no return from one: the block has no trap
mechanism (`60_exceptions.md` R103, R104). -/

namespace Sys2Proof.Machine

/-- The host puts a request on the input signals and keeps `rest` for later (`70_reset_and_hazards.md` R124). -/
def State.present (s : State) (q : Request) (rest : List Request) : State :=
  { s with inputs := some q, pending := rest }

/-- The host reads a response: it is added to the run's observation (`70_reset_and_hazards.md` R127). Nothing of the block
is written (`10_state.md` R10). -/
def State.answer (s : State) (r : Response) : State :=
  { s with answered := s.answered ++ [r] }

/-- The output signals: at every instant `RESP` of the input signals (`70_reset_and_hazards.md` R120, R121). They are not
stored. -/
def State.outputs (s : State) : Option Response := s.inputs.map resp

/-- The next transaction: the operation that the host's next request selects, and the state with that request on the
input signals; `none` when the host's list is used up (`70_reset_and_hazards.md` R127). -/
def fetch (s : State) : Option (Instr × State) :=
  match s.pending with
  | [] => none
  | q :: rest => some (decode q.word, s.present q rest)

/-- The host puts one more request in front of its list. -/
def State.load (s : State) (q : Request) : State := { s with pending := q :: s.pending }

end Sys2Proof.Machine
end

