-- ==== Sys2Proof/Machine/Extract.lean ====
section
/-! DEFINITION. The meanings of the two operations. Each answers its request and changes nothing else: no flag, no state,
no exception, for any operand (`40_decode.md` R72, R73). -/

namespace Sys2Proof.Machine

/-- `DEC32` (`40_decode.md` R72, response `30_encoding.md` R54). The upper operand half is not read (R58). -/
def execDec32 (_hi v : BitVec 32) (s : State) : Host.Outcome State Fault Refusal :=
  .next (s.answer (toPorts (dec32 v)))

/-- `DEC64` (`40_decode.md` R73, response `30_encoding.md` R55). -/
def execDec64 (v : BitVec 64) (s : State) : Host.Outcome State Fault Refusal :=
  .next (s.answer (toPorts (dec64 v)))

end Sys2Proof.Machine
end

