-- ==== Sys2Proof/Machine/Dispatch.lean ====
section
/-! DEFINITION. One arm per operation. -/

namespace Sys2Proof.Machine

def exec (i : Instr) (s : State) : Host.Outcome State Fault Refusal :=
  match i with
  | .dec32 hi v => Sys2Proof.Machine.execDec32 hi v s
  | .dec64 v => Sys2Proof.Machine.execDec64 v s

end Sys2Proof.Machine
end

