-- ==== Sys2Proof/Machine/Step.lean ====
section
/-! DEFINITION. One step is one transaction (`00_scope.md` section 8): the host's next request is put on the input signals
and answered. -/

namespace Sys2Proof.Machine

/-- One transaction. With no request left nothing happens: the block does nothing unasked (`95_test_vectors.md` P5,
log entry 3). -/
def step (s : State) : Host.Outcome State Fault Refusal :=
  match fetch s with
  | none => .next s
  | some (i, t) => exec i t

/-- `s` with the request word in front of the host's list, where `step` takes its next request (log entry 4). A number
that is no request word is not loaded (log entry 8). -/
def State.withFetchWord (s : State) (nbits w : Nat) : State :=
  match tableReqWord nbits w with
  | .ok r => s.load (Request.ofWord r)
  | .error _ => s

end Sys2Proof.Machine
end

