-- ==== Sys2Proof/Machine/HostBytes.lean ====
section
/-! DEFINITION. The host-side helper `BytesToRaw` (`20_memory.md` R34) and its inverse: not part of the block, no step uses
it. The host's byte order is an argument (`92_eei_decisions.md` D22, log entry 11). -/

namespace Sys2Proof.Machine

/-- Bytes joined with the first one most significant, as in `{b[0], b[1], ...}`. -/
def joinBytes (W : Nat) (bs : List Byte) : BitVec W :=
  bs.foldl (fun acc b => acc <<< 8 ||| b.setWidth W) 0

/-- `BytesToRaw_F`: the operand of the storage bytes `b`, lowest address first. -/
def bytesToRaw (F : Format) (o : HostByteOrder) (b : Vector Byte F.bytes) : BitVec F.W :=
  match o with
  | .little => joinBytes F.W b.toList.reverse
  | .big => joinBytes F.W b.toList

/-- The storage bytes of an operand, lowest address first. -/
def rawToBytes (F : Format) (o : HostByteOrder) (v : BitVec F.W) : Vector Byte F.bytes :=
  match o with
  | .little => Vector.ofFn fun k => (v >>> (8 * k.val)).setWidth 8
  | .big => Vector.ofFn fun k => (v >>> (8 * (F.bytes - 1 - k.val))).setWidth 8

end Sys2Proof.Machine
end

