-- ==== Sys2Proof/Machine/Text.lean ====
section
/-! DEFINITION. The written form of a transaction (`30_encoding.md` R63), as lists of characters. It is the spec's way of
writing vectors and programs and no part of the block; the presentation layer of `00_scope.md` R7 is another thing and is
outside the model (log entry 14). -/

namespace Sys2Proof.Machine

/-- A hexadecimal digit, in the letter case of the spec's listings. -/
def hexDigit (n : Nat) : Char := if n < 10 then Char.ofNat (48 + n) else Char.ofNat (55 + n)

/-- The low `n` hexadecimal digits of a number, most significant first. -/
def hexDigits : Nat → Nat → List Char
  | 0, _ => []
  | n + 1, x => hexDigits n (x / 16) ++ [hexDigit (x % 16)]

/-- A hexadecimal literal of `n` digits. -/
def hexLit (n : Nat) {w : Nat} (v : BitVec w) : List Char := ['0', 'x'] ++ hexDigits n v.toNat

/-- The request's side of a line in the abstract layer: `DEC32` takes exactly 8 digits, `DEC64` exactly 16. -/
def requestText : Instr → List Char
  | .dec32 _ v => ['D', 'E', 'C', '3', '2', ' '] ++ hexLit 8 v
  | .dec64 v => ['D', 'E', 'C', '6', '4', ' '] ++ hexLit 16 v

/-- The request's side of a line in a port-level listing: a `DEC32` line adds the ignored upper half. -/
def portRequestText : Instr → List Char
  | .dec32 hi v => requestText (.dec32 hi v) ++ [' ', 'h', 'i', '='] ++ hexLit 8 hi
  | .dec64 v => requestText (.dec64 v)

/-- The names of the classes (`30_encoding.md` R62). -/
def classText : FpClass → List Char
  | .zero => ['Z', 'E', 'R', 'O']
  | .subnormal => ['S', 'U', 'B', 'N', 'O', 'R', 'M', 'A', 'L']
  | .normal => ['N', 'O', 'R', 'M', 'A', 'L']
  | .infinity => ['I', 'N', 'F', 'I', 'N', 'I', 'T', 'Y']
  | .nan => ['N', 'A', 'N']

/-- The digits of `width`. -/
def widthText : Format → List Char
  | .f32 => ['3', '2']
  | .f64 => ['6', '4']

/-- The response's side of a line: `raw` with 8 or 16 digits, `exponent` with 2 or 3, `fraction` with 6 or 13 (the field
widths rounded up to whole digits), the class by name. -/
def responseText {F : Format} (r : FloatBits F) : List Char :=
  ['w', 'i', 'd', 't', 'h', '='] ++ widthText F ++
  [' ', 'r', 'a', 'w', '='] ++ hexLit (F.W / 4) r.raw ++
  [' ', 's', 'i', 'g', 'n', '='] ++ hexDigits 1 r.sign.toNat ++
  [' ', 'e', 'x', 'p', 'o', 'n', 'e', 'n', 't', '='] ++ hexLit ((F.EW + 3) / 4) r.exponent ++
  [' ', 'f', 'r', 'a', 'c', 't', 'i', 'o', 'n', '='] ++ hexLit ((F.FW + 3) / 4) r.fraction ++
  [' ', 'c', 'l', 's', '='] ++ classText (classify F r.exponent r.fraction)

/-- A transaction as one line: the request, an arrow, the response of the abstract layer. -/
def transactionText (i : Instr) : List Char :=
  requestText i ++ [' ', '-', '>', ' '] ++
    match i with
    | .dec32 _ v => responseText (dec32 v)
    | .dec64 v => responseText (dec64 v)

end Sys2Proof.Machine
end

