-- ==== Sys2Proof/Safety.lean ====
section
/-! DEFINITION. What counts as a sound run, in the terms the statements use. -/

namespace Sys2Proof

/-- Every response read so far is one the block can give (`30_encoding.md` R61, `42_laws.md` R96). -/
def Machine.State.Legal (s : Machine.State) : Prop := ∀ r ∈ s.answered, r.wf = true

/-- The output signals carry the response read last (`10_state.md` R19, `70_reset_and_hazards.md` R124); before the first
request there is neither. -/
def Machine.State.Current (s : Machine.State) : Prop := s.outputs = s.answered.getLast?

/-- A sound state: both. -/
structure Machine.State.Sound (s : Machine.State) : Prop where
  legal : s.Legal
  current : s.Current

/-- A step neither faults nor refuses: it answers a next state (`60_exceptions.md` R100). -/
def Machine.Completes (o : Host.Outcome Machine.State Machine.Fault Machine.Refusal) : Prop := ∃ t, o = .next t

end Sys2Proof
end

