-- ==== Sys2Proof/Certificates/Slice0/Obligations.lean ====
section
/-! DEFINITION. The statements. A docstring names the rule of the spec; where a clause rests on one of the spec's own
decisions D<n> or on a choice of the model, it says so and the statement's basis is 'derived'. -/

open Sys2Proof Sys2Proof.Machine

/-! ## Formats and field extraction -/

/-- `00_scope.md` R5, the literals of the table and the checks under it (marked by the spec as derived). -/
def Obligations.FormatConstantsAgree : Prop :=
  (Format.f32.W, Format.f32.EW, Format.f32.FW, Format.f32.eMax, Format.f32.bias) = (32, 8, 23, 255, 127) ∧
  (Format.f64.W, Format.f64.EW, Format.f64.FW, Format.f64.eMax, Format.f64.bias) = (64, 11, 52, 2047, 1023) ∧
  ∀ F : Format, F.W = 1 + F.EW + F.FW ∧ F.signPos = F.W - 1 ∧ F.expHi = F.W - 2 ∧ F.expLo = F.FW ∧
    F.fracHi = F.FW - 1 ∧ F.fracLo = 0 ∧ F.expMask = 2 ^ F.EW - 1 ∧ F.fracMask = 2 ^ F.FW - 1 ∧ F.eMax = F.expMask

/-- `30_encoding.md` R52: the three fields of a 32-bit operand, as bit positions and as shift and mask, and that they
cover it exactly. -/
def Obligations.ThirtyTwoBitLayout : Prop :=
  ∀ v : BitVec 32,
    (dec32 v).sign = v.extractLsb' 31 1 ∧
    (dec32 v).exponent = v.extractLsb' 23 8 ∧
    (dec32 v).exponent.setWidth 32 = (v >>> 23) &&& 0xFF#32 ∧
    (dec32 v).fraction = v.extractLsb' 0 23 ∧
    (dec32 v).fraction.setWidth 32 = v &&& 0x7FFFFF#32 ∧
    (dec32 v).sign ++ (dec32 v).exponent ++ (dec32 v).fraction = v

/-- `30_encoding.md` R53: the same of a 64-bit operand. -/
def Obligations.SixtyFourBitLayout : Prop :=
  ∀ v : BitVec 64,
    (dec64 v).sign = v.extractLsb' 63 1 ∧
    (dec64 v).exponent = v.extractLsb' 52 11 ∧
    (dec64 v).exponent.setWidth 64 = (v >>> 52) &&& 0x7FF#64 ∧
    (dec64 v).fraction = v.extractLsb' 0 52 ∧
    (dec64 v).fraction.setWidth 64 = v &&& 0xFFFFFFFFFFFFF#64 ∧
    (dec64 v).sign ++ (dec64 v).exponent ++ (dec64 v).fraction = v

/-- `40_decode.md` R70 and R71: `raw` is the operand, `width` the constant, and each field is the unsigned number that
division and remainder give (the shift is logical; no bias is subtracted and no leading bit added, R74). -/
def Obligations.FieldsAsUnsignedNumbers : Prop :=
  ∀ (F : Format) (v : BitVec F.W),
    (extract F v).raw = v ∧ (extract F v).width = F.W ∧
    (extract F v).sign.toNat = v.toNat / 2 ^ (F.W - 1) ∧
    (extract F v).exponent.toNat = v.toNat / 2 ^ F.FW % 2 ^ F.EW ∧
    (extract F v).fraction.toNat = v.toNat % 2 ^ F.FW

/-- `20_memory.md` R31: the operand is taken bit for bit, `raw` is the operand for every pattern of either format; and
the rule's own example, `1.0`. -/
def Obligations.RawIsTheOperand : Prop :=
  (∀ v : BitVec 32, (dec32 v).raw = v) ∧ (∀ v : BitVec 64, (dec64 v).raw = v) ∧
  (dec32 0x3F800000#32).raw = 0x3F800000#32

/-! ## Reconstruction and the laws -/

/-- `42_laws.md` R90: `PACK` as the or of the three shifted, zero-extended fields, and as concatenation. -/
def Obligations.PackJoinsFields : Prop :=
  (∀ (s : BitVec 1) (e : BitVec 8) (f : BitVec 23),
    pack32 s e f = (s.setWidth 32 <<< 31) ||| (e.setWidth 32 <<< 23) ||| f.setWidth 32 ∧ pack32 s e f = s ++ e ++ f) ∧
  (∀ (s : BitVec 1) (e : BitVec 11) (f : BitVec 52),
    pack64 s e f = (s.setWidth 64 <<< 63) ||| (e.setWidth 64 <<< 52) ||| f.setWidth 64 ∧ pack64 s e f = s ++ e ++ f)

/-- `10_state.md` R18: the three fields are a lossless partition of `raw`; each term occupies the bits of its field
only. -/
def Obligations.FieldsPartitionRaw : Prop :=
  ∀ (F : Format) (v : BitVec F.W),
    (extract F v).raw =
      ((extract F v).sign.setWidth F.W <<< (F.W - 1)) ||| ((extract F v).exponent.setWidth F.W <<< F.FW) |||
        (extract F v).fraction.setWidth F.W ∧
    ∀ i < F.W,
      (((extract F v).sign.setWidth F.W <<< (F.W - 1)).getLsbD i = true → i = F.W - 1) ∧
      (((extract F v).exponent.setWidth F.W <<< F.FW).getLsbD i = true → F.FW ≤ i ∧ i ≤ F.W - 2) ∧
      (((extract F v).fraction.setWidth F.W).getLsbD i = true → i ≤ F.FW - 1)

/-- `42_laws.md` R91, round trip. -/
def Obligations.PackOfDecodeIsRaw : Prop :=
  (∀ v : BitVec 32, pack32 (dec32 v).sign (dec32 v).exponent (dec32 v).fraction = (dec32 v).raw ∧ (dec32 v).raw = v) ∧
  (∀ v : BitVec 64, pack64 (dec64 v).sign (dec64 v).exponent (dec64 v).fraction = (dec64 v).raw ∧ (dec64 v).raw = v)

/-- `42_laws.md` R92, field disjointness. -/
def Obligations.FieldTermsDisjoint : Prop :=
  ∀ (F : Format) (v : BitVec F.W),
    signTerm F (extract F v).sign &&& exponentTerm F (extract F v).exponent = 0#F.W ∧
    signTerm F (extract F v).sign &&& fractionTerm F (extract F v).fraction = 0#F.W ∧
    exponentTerm F (extract F v).exponent &&& fractionTerm F (extract F v).fraction = 0#F.W ∧
    signTerm F (extract F v).sign ||| exponentTerm F (extract F v).exponent ||| fractionTerm F (extract F v).fraction =
      (extract F v).raw

/-- `42_laws.md` R92, the sentence on the in-place masks, which the spec marks as derived. -/
def Obligations.InPlaceMasks : Prop :=
  (signTerm .f32 (BitVec.allOnes 1), exponentTerm .f32 (BitVec.allOnes 8), fractionTerm .f32 (BitVec.allOnes 23)) =
    (0x80000000#32, 0x7F800000#32, 0x007FFFFF#32) ∧
  (signTerm .f64 (BitVec.allOnes 1), exponentTerm .f64 (BitVec.allOnes 11), fractionTerm .f64 (BitVec.allOnes 52)) =
    (0x8000000000000000#64, 0x7FF0000000000000#64, 0x000FFFFFFFFFFFFF#64)

/-- `42_laws.md` R95, the other direction, with the consequence the spec derives from it: decoding is injective and
every triple of field values is the decode of exactly one pattern. -/
def Obligations.DecodeAndPackAreInverse : Prop :=
  ∀ F : Format,
    (∀ (s : BitVec 1) (e : BitVec F.EW) (f : BitVec F.FW),
      extract F (pack F s e f) = ⟨pack F s e f, s, e, f⟩ ∧
      ∃! v : BitVec F.W, (extract F v).sign = s ∧ (extract F v).exponent = e ∧ (extract F v).fraction = f) ∧
    ∀ v w : BitVec F.W, (extract F v).sign = (extract F w).sign → (extract F v).exponent = (extract F w).exponent →
      (extract F v).fraction = (extract F w).fraction → v = w

/-- `42_laws.md` R93 in its pattern form, which rests on the spec's general-knowledge passage G4 (log entry 13):
inverting the top bit inverts the sign and leaves exponent, fraction, width and class; `raw` differs in that bit and
nowhere else (`90_conflicts.md` C1). The class does not depend on the sign (`41_classify.md` R85). -/
def Obligations.NegationChangesSignOnly : Prop :=
  ∀ (F : Format) (v : BitVec F.W),
    (extract F (negate F v)).sign = 1#1 - (extract F v).sign ∧
    (extract F (negate F v)).exponent = (extract F v).exponent ∧
    (extract F (negate F v)).fraction = (extract F v).fraction ∧
    (extract F (negate F v)).width = (extract F v).width ∧
    classify F (extract F (negate F v)).exponent (extract F (negate F v)).fraction =
      classify F (extract F v).exponent (extract F v).fraction ∧
    ∀ i < F.W, ((extract F (negate F v)).raw.getLsbD i = (extract F v).raw.getLsbD i ↔ i ≠ F.W - 1)

/-! ## Classification -/

/-- `41_classify.md` R80: the table, row by row, both directions, with `E_MAX` 255 and 2047. -/
def Obligations.ClassificationTable : Prop :=
  Format.f32.eMax = 255 ∧ Format.f64.eMax = 2047 ∧
  ∀ (F : Format) (e : BitVec F.EW) (f : BitVec F.FW),
    (classify F e f = .zero ↔ e.toNat = 0 ∧ f.toNat = 0) ∧
    (classify F e f = .subnormal ↔ e.toNat = 0 ∧ f.toNat ≠ 0) ∧
    (classify F e f = .normal ↔ 0 < e.toNat ∧ e.toNat < F.eMax) ∧
    (classify F e f = .infinity ↔ e.toNat = F.eMax ∧ f.toNat = 0) ∧
    (classify F e f = .nan ↔ e.toNat = F.eMax ∧ f.toNat ≠ 0)

/-- `41_classify.md` R81: the truth table of `CLASS32`, by ranges. -/
def Obligations.ClassThirtyTwoTruthTable : Prop :=
  class32 0x00#8 0#23 = .zero ∧
  (∀ f : BitVec 23, 0x000001#23 ≤ f → class32 0x00#8 f = .subnormal) ∧
  (∀ (e : BitVec 8) (f : BitVec 23), 0x01#8 ≤ e → e ≤ 0xFE#8 → class32 e f = .normal) ∧
  class32 0xFF#8 0#23 = .infinity ∧
  (∀ f : BitVec 23, 0x000001#23 ≤ f → class32 0xFF#8 f = .nan)

/-- `41_classify.md` R82: the truth table of `CLASS64`, by ranges. -/
def Obligations.ClassSixtyFourTruthTable : Prop :=
  class64 0x000#11 0#52 = .zero ∧
  (∀ f : BitVec 52, 0x0000000000001#52 ≤ f → class64 0x000#11 f = .subnormal) ∧
  (∀ (e : BitVec 11) (f : BitVec 52), 0x001#11 ≤ e → e ≤ 0x7FE#11 → class64 e f = .normal) ∧
  class64 0x7FF#11 0#52 = .infinity ∧
  (∀ f : BitVec 52, 0x0000000000001#52 ≤ f → class64 0x7FF#11 f = .nan)

/-- `41_classify.md` R83: exactly one row of the table applies to every pair of fields. -/
def Obligations.ExactlyOneRowApplies : Prop :=
  ∀ (F : Format) (e : BitVec F.EW) (f : BitVec F.FW),
    ([decide (e.toNat = 0 ∧ f.toNat = 0), decide (e.toNat = 0 ∧ f.toNat ≠ 0),
      decide (0 < e.toNat ∧ e.toNat < F.eMax), decide (e.toNat = F.eMax ∧ f.toNat = 0),
      decide (e.toNat = F.eMax ∧ f.toNat ≠ 0)] : List Bool).count true = 1

/-- `41_classify.md` R83, the counts (the spec's own derivation): how many pairs of fields each class has, and that each
count doubles when the sign is counted too. -/
def Obligations.ClassCounts : Prop :=
  ∀ F : Format,
    Nat.card { p : BitVec F.EW × BitVec F.FW // classify F p.1 p.2 = .zero } = 1 ∧
    Nat.card { p : BitVec F.EW × BitVec F.FW // classify F p.1 p.2 = .subnormal } = 2 ^ F.FW - 1 ∧
    Nat.card { p : BitVec F.EW × BitVec F.FW // classify F p.1 p.2 = .normal } = (F.eMax - 1) * 2 ^ F.FW ∧
    Nat.card { p : BitVec F.EW × BitVec F.FW // classify F p.1 p.2 = .infinity } = 1 ∧
    Nat.card { p : BitVec F.EW × BitVec F.FW // classify F p.1 p.2 = .nan } = 2 ^ F.FW - 1 ∧
    ∀ c : FpClass,
      Nat.card { v : BitVec F.W // classify F (extract F v).exponent (extract F v).fraction = c } =
        2 * Nat.card { p : BitVec F.EW × BitVec F.FW // classify F p.1 p.2 = c }

/-- `30_encoding.md` R62: the codes, which are the spec's decision D7. -/
def Obligations.ClassCodes : Prop :=
  FpClass.zero.code = 0b000#3 ∧ FpClass.subnormal.code = 0b001#3 ∧ FpClass.normal.code = 0b010#3 ∧
  FpClass.infinity.code = 0b011#3 ∧ FpClass.nan.code = 0b100#3 ∧ ∀ c d : FpClass, c.code = d.code → c = d

/-! ## Encoding -/

/-- Every operation comes back from its request word, with every operand at every value: no bit of an encoding is
dropped (`30_encoding.md` R50, R51, R59, decisions D2, D3). -/
def Obligations.DecodeOfEncodeIsOperation : Prop :=
  ∀ i : Instr, i.wf = true → decode (encode i) = i

/-- Every request word comes back from the operation it selects (the ignored upper half is kept as an operand, log
entry 7). -/
def Obligations.EncodeOfDecodeIsWord : Prop :=
  ∀ w : ReqWord, encode (decode w) = w

/-- `30_encoding.md` R59 (decisions D3, D12): every request word is in exactly one row of the opcode table, the row of
the operation it decodes to. -/
def Obligations.EveryWordSelectsExactlyOneRow : Prop :=
  ∀ w : ReqWord, opcodeTable.filter (fun r => r.selects w) = [(decode w).row]

/-- `30_encoding.md` R50 (decision D2): the request word is `fmt` above `in_bits`, and the two signals come back from
it. -/
def Obligations.RequestWordHoldsBothSignals : Prop :=
  ∀ q : Request, Request.ofWord q.word = q ∧ q.word.toNat = q.fmt.toNat * 2 ^ 64 + q.inBits.toNat

/-- Words written out from `30_encoding.md` R59 and `95_test_vectors.md` section 6 decode to what they stand for. -/
def Obligations.WrittenWordsDecode : Prop :=
  decode 0b00000000000000000000000000000000001000000101000000000000000000000#65 = .dec32 0 0x40A00000#32 ∧
  decode 0x0DEADBEEF40A00000#65 = .dec32 0xDEADBEEF#32 0x40A00000#32 ∧
  decode 0b10011111110111001100110011001100110011001100110011001100110011010#65 = .dec64 0x3FB999999999999A#64 ∧
  decode 0x10000000080000000#65 = .dec64 0x0000000080000000#64

/-! ## The port layer -/

/-- `40_decode.md` R76 with `30_encoding.md` R54, R55 (decisions D2, D4 to D7): the six outputs for both values of
`fmt`. -/
def Obligations.PortFunction : Prop :=
  ∀ x : BitVec 64,
    resp ⟨0#1, x⟩ = ⟨32#7, 0#32 ++ x.extractLsb' 0 32, x.extractLsb' 31 1, 0#3 ++ x.extractLsb' 23 8,
      0#29 ++ x.extractLsb' 0 23, (class32 (x.extractLsb' 23 8) (x.extractLsb' 0 23)).code⟩ ∧
    resp ⟨1#1, x⟩ = ⟨64#7, x, x.extractLsb' 63 1, x.extractLsb' 52 11, x.extractLsb' 0 52,
      (class64 (x.extractLsb' 52 11) (x.extractLsb' 0 52)).code⟩

/-- `30_encoding.md` R58, `42_laws.md` R96 (1) (decision D4): with `fmt = 0` no output and no effect depends on the
upper operand half. -/
def Obligations.UpperHalfIgnored : Prop :=
  ∀ h₁ h₂ lo : BitVec 32,
    resp ⟨0#1, h₁ ++ lo⟩ = resp ⟨0#1, h₂ ++ lo⟩ ∧
    ∀ s : State, exec (.dec32 h₁ lo) s = exec (.dec32 h₂ lo) s

/-- `30_encoding.md` R61, `42_laws.md` R96 (2), (3) (decisions D5 to D7): codes and bits that never occur. -/
def Obligations.OutputCodesThatNeverOccur : Prop :=
  ∀ q : Request,
    (resp q).cls.toNat ≤ 4 ∧ ((resp q).width = 32#7 ∨ (resp q).width = 64#7) ∧
    (q.fmt = 0#1 → (resp q).raw.extractLsb' 32 32 = 0#32 ∧ (resp q).exponent.extractLsb' 8 3 = 0#3 ∧
      (resp q).fraction.extractLsb' 23 29 = 0#29)

/-- `10_state.md` R23 (decisions D5, D13): the exact-width record comes back from the ports by truncation. -/
def Obligations.RecordRecoveredFromPorts : Prop :=
  (∀ (F : Format) (r : FloatBits F), ofPorts F (toPorts r) = r) ∧
  ∀ x : BitVec 64, ofPorts .f32 (resp ⟨0#1, x⟩) = dec32 (x.extractLsb' 0 32) ∧ ofPorts .f64 (resp ⟨1#1, x⟩) = dec64 x

/-- `42_laws.md` R96 (4), (5) (decisions D4, D5): the round trip on the ports, and what the two formats share. -/
def Obligations.PortRoundTrip : Prop :=
  ∀ x : BitVec 64,
    (resp ⟨1#1, x⟩).sign ++ (resp ⟨1#1, x⟩).exponent ++ (resp ⟨1#1, x⟩).fraction = (resp ⟨1#1, x⟩).raw ∧
    (resp ⟨1#1, x⟩).raw = x ∧
    (resp ⟨0#1, x⟩).sign ++ (resp ⟨0#1, x⟩).exponent.extractLsb' 0 8 ++ (resp ⟨0#1, x⟩).fraction.extractLsb' 0 23 =
      (resp ⟨0#1, x⟩).raw.extractLsb' 0 32 ∧
    (resp ⟨0#1, x⟩).raw.extractLsb' 0 32 = x.extractLsb' 0 32 ∧
    (resp ⟨0#1, x⟩).raw.extractLsb' 0 32 = (resp ⟨1#1, x⟩).raw.extractLsb' 0 32

/-- `30_encoding.md` R64 (decision D6): `width = {fmt, ~fmt, 5'b00000}`. -/
def Obligations.WidthOutput : Prop :=
  ∀ q : Request, (resp q).width = q.fmt ++ ~~~q.fmt ++ 0#5

/-- `41_classify.md` R84 (decision D7): the class code read off the port values themselves, with `E_MAX` taken per
format. -/
def Obligations.ClassCodeOfPortValues : Prop :=
  ∀ q : Request, ∀ eMax : BitVec 11, eMax = (if q.fmt = 0#1 then 0x0FF#11 else 0x7FF#11) →
    ((resp q).cls = 0#3 ↔ (resp q).exponent = 0#11 ∧ (resp q).fraction = 0#52) ∧
    ((resp q).cls = 1#3 ↔ (resp q).exponent = 0#11 ∧ (resp q).fraction ≠ 0#52) ∧
    ((resp q).cls = 2#3 ↔ 0#11 < (resp q).exponent ∧ (resp q).exponent < eMax) ∧
    ((resp q).cls = 3#3 ↔ (resp q).exponent = eMax ∧ (resp q).fraction = 0#52) ∧
    ((resp q).cls = 4#3 ↔ (resp q).exponent = eMax ∧ (resp q).fraction ≠ 0#52)

/-- The five checks of `Response.wf` (`30_encoding.md` R61, `41_classify.md` R84, `42_laws.md` R96) say exactly which
responses the block can give; they rest on the spec's decisions D4 to D7. -/
def Obligations.WellFormedIffSomeResponse : Prop :=
  ∀ p : Response, p.wf = true ↔ ∃ q : Request, resp q = p

/-! ## The machine -/

/-- `DEC32` completes for every operand and in every state, with this result and nothing else changed (`40_decode.md`
R72; on the ports `30_encoding.md` R54, decisions D4 to D7). The list `answered` is the model's own (log entry 1). -/
def Obligations.DecThirtyTwoCompletes : Prop :=
  ∀ (hi v : BitVec 32) (s : State),
    exec (.dec32 hi v) s = .next { s with answered := s.answered ++ [
      ⟨32#7, 0#32 ++ v, v.extractLsb' 31 1, 0#3 ++ v.extractLsb' 23 8, 0#29 ++ v.extractLsb' 0 23,
        (class32 (v.extractLsb' 23 8) (v.extractLsb' 0 23)).code⟩] }

/-- `DEC64` completes for every operand and in every state, with this result and nothing else changed (`40_decode.md`
R73; on the ports `30_encoding.md` R55, decisions D6, D7). The list `answered` is the model's own (log entry 1). -/
def Obligations.DecSixtyFourCompletes : Prop :=
  ∀ (v : BitVec 64) (s : State),
    exec (.dec64 v) s = .next { s with answered := s.answered ++ [
      ⟨64#7, v, v.extractLsb' 63 1, v.extractLsb' 52 11, v.extractLsb' 0 52,
        (class64 (v.extractLsb' 52 11) (v.extractLsb' 0 52)).code⟩] }

/-- The frame of both operations: the block's state, the input signals, the output signals, the requests still to come
and every earlier response are unchanged; exactly one response is added (`40_decode.md` R72, R73 "State written: none";
the lists and the input signals are the model's own, log entry 1). -/
def Obligations.OperationsFrame : Prop :=
  ∀ (i : Instr) (s t : State), exec i s = .next t →
    t.block = s.block ∧ t.inputs = s.inputs ∧ t.outputs = s.outputs ∧ t.pending = s.pending ∧
    ∃ r : Response, t.answered = s.answered ++ [r]

/-- No fault and no refusal, for any operation, operand and state; every transaction gives a next state and a response
(`60_exceptions.md` R100). Two things here are the model's choice: that a response is one element more of the list
`answered` (log entry 1), and that a step with no request left answers a next state (log entry 3). -/
def Obligations.NoFaultAndNoRefusal : Prop :=
  (∀ (i : Instr) (s : State), ∃ (t : State) (r : Response), exec i s = .next t ∧ t.answered = s.answered ++ [r]) ∧
  (∀ s : State, Completes (step s)) ∧
  (∀ (s : State) (q : Request) (rest : List Request), s.pending = q :: rest →
    ∃ (t : State) (r : Response), step s = .next t ∧ t.answered = s.answered ++ [r])

/-- `10_state.md` R10: the block's state type is the one-element type, and a step changes nothing of it. -/
def Obligations.BlockHasOneState : Prop :=
  (∀ a b : BlockState, a = b) ∧ ∀ s t : State, step s = .next t → t.block = s.block

/-- A step runs the operation that the host's next request decodes to, with that request on the input signals and taken
off the list (`70_reset_and_hazards.md` R124, R127; the fields are the model's own, log entry 1). -/
def Obligations.StepRunsDecodedOperation : Prop :=
  ∀ (s : State) (q : Request) (rest : List Request) (i : Instr), s.pending = q :: rest → decode q.word = i →
    step s = exec i { s with inputs := some q, pending := rest }

/-- With no request left a step changes nothing: the model's choice (log entry 3; `95_test_vectors.md` P5, "The block
does nothing unasked"). -/
def Obligations.StepWithNoRequestLeft : Prop :=
  ∀ s : State, s.pending = [] → step s = .next s

/-- One transaction through fetch, decode and the operation gives exactly the combinational `RESP` of the request
(`40_decode.md` R76, `70_reset_and_hazards.md` R120, decisions D2 to D7), on the output signals and in the list. -/
def Obligations.StepAnswersWithPortFunction : Prop :=
  ∀ (s : State) (q : Request) (rest : List Request), s.pending = q :: rest →
    step s = .next { s with inputs := some q, pending := rest, answered := s.answered ++ [resp q] } ∧
    ({ s with inputs := some q, pending := rest, answered := s.answered ++ [resp q] } : State).outputs = some (resp q)

/-- `20_memory.md` R38, independence: the response to a request depends on the request alone, whatever the history, the
requests to come and the input signals before it. The lists of requests and responses are the model's own (log
entry 1). -/
def Obligations.ResponseDependsOnRequestAlone : Prop :=
  ∀ (s s' : State) (q : Request) (rest rest' : List Request), s.pending = q :: rest → s'.pending = q :: rest' →
    ∃ (r : Response) (t t' : State), step s = .next t ∧ step s' = .next t' ∧
      t.answered = s.answered ++ [r] ∧ t'.answered = s'.answered ++ [r]

/-- The response stays on the output signals as long as its request is held: further steps with no request to perform
change neither (`10_state.md` R19, `20_memory.md` R38; idle steps are the model's choice, log entry 3). -/
def Obligations.HeldRequestKeepsResponse : Prop :=
  ∀ (s : State) (q : Request) (n : Nat), s.pending = [q] →
    ∃ t : State, Host.Core.run Sys2Proof.core (n + 1) s = .next t ∧ t.inputs = some q ∧ t.outputs = some (resp q) ∧
      t.answered = s.answered ++ [resp q]

/-- `n` steps perform the first `n` requests of the host's list in list order, answer each with its own `RESP`, and leave
the block as it was (`70_reset_and_hazards.md` R127, decision D11). R127 ends a run with its last request; that further
steps, for `n` above the list's length, answer a next state and change nothing is the model's choice (log entry 3). The
lists are the model's own (log entry 1). -/
def Obligations.RunAnswersEveryRequest : Prop :=
  ∀ (n : Nat) (s : State), ∃ t : State, Host.Core.run Sys2Proof.core n s = .next t ∧
    t.block = s.block ∧ t.pending = s.pending.drop n ∧ t.answered = s.answered ++ (s.pending.take n).map resp

/-- Every order of a set of transactions gives the same response for each request: two runs over the same requests in
different orders pair the same responses with them (`20_memory.md` R38). The lists that pair them are the model's own
(log entry 1). -/
def Obligations.AnyOrderSameResponses : Prop :=
  ∀ s s' : State, s.answered = [] → s'.answered = [] → s.pending.Perm s'.pending →
    ∃ t t' : State, Host.Core.run Sys2Proof.core s.pending.length s = .next t ∧
      Host.Core.run Sys2Proof.core s'.pending.length s' = .next t' ∧
      (s.pending.zip t.answered).Perm (s'.pending.zip t'.answered) ∧
      t.answered.length = s.pending.length ∧ t'.answered.length = s'.pending.length

/-- Every step keeps a state sound: every response read is one the block can give, and the output signals carry the one
read last (`30_encoding.md` R61, `42_laws.md` R96, `10_state.md` R19; decisions D4 to D7). Its fields are the model's
own (log entries 1, 2), and so is the step with no request left (log entry 3). -/
def Obligations.StepKeepsSound : Prop :=
  ∀ s t : State, s.Sound → step s = .next t → t.Sound

/-- The state after reset is sound. Its fields are the model's own (log entries 2, 4). -/
def Obligations.ResetIsSound : Prop := State.reset.Sound

/-- After reset there is no history: nothing on the input signals, nothing pending, nothing answered (the model's choice,
log entries 2 and 4), and the block is in its one state (`70_reset_and_hazards.md` R120). -/
def Obligations.ResetHasNoHistory : Prop :=
  State.reset.inputs = none ∧ State.reset.outputs = none ∧ State.reset.pending = [] ∧ State.reset.answered = [] ∧
  ∀ b : BlockState, State.reset.block = b

/-- A request word put in front of the list is the one the next step runs, and the decoder gives the same operation for it
(log entries 4, 8). -/
def Obligations.LoadedWordRunsNext : Prop :=
  ∀ (s : State) (nbits w : Nat), 65 ≤ nbits → w < 2 ^ 65 →
    decodeTableWord nbits w = some (decode (BitVec.ofNat 65 w)) ∧
    ∃ q : Request, q.word = BitVec.ofNat 65 w ∧
      step (s.withFetchWord nbits w) = exec (decode (BitVec.ofNat 65 w)) { s with inputs := some q }

/-- Numbers that are no request word are refused by name and load nothing (log entry 8). -/
def Obligations.WiderNumbersRefused : Prop :=
  ∀ (s : State) (nbits w : Nat), 2 ^ 65 ≤ w % 2 ^ nbits →
    tableReqWord nbits w = .error .widerThanRequestWord ∧ decodeTableWord nbits w = none ∧ s.withFetchWord nbits w = s

/-! ## The host's helpers -/

/-- `20_memory.md` R34 (decision D22): where each storage byte of the operand lies, for both byte orders. -/
def Obligations.StorageBytesInPlace : Prop :=
  ∀ (F : Format) (b : Vector Byte F.bytes) (k : Nat) (hk : k < F.bytes),
    (bytesToRaw F .little b).extractLsb' (8 * k) 8 = b[k] ∧
    (bytesToRaw F .big b).extractLsb' (8 * (F.bytes - 1 - k)) 8 = b[k]

/-- The bytes of an operand give it back, and the operand of bytes gives the bytes back, in each byte order
(`20_memory.md` R33, R34, decision D22). -/
def Obligations.StorageBytesRoundTrip : Prop :=
  ∀ (F : Format) (o : HostByteOrder),
    (∀ v : BitVec F.W, bytesToRaw F o (rawToBytes F o v) = v) ∧
    ∀ b : Vector Byte F.bytes, rawToBytes F o (bytesToRaw F o b) = b

/-- The written form of a request names it (`30_encoding.md` R63, decision D12): the mnemonic and exactly 8 or 16
hexadecimal digits, and in a port-level listing two different operations never have the same line. The second holds
because the model always states `hi` there, which R63 lets a line leave out, and the digits are capitals: both are the
model's choice (log entry 14). -/
def Obligations.WrittenLineNamesOperation : Prop :=
  (∀ hi v : BitVec 32, ∃ digits : List Char, digits.length = 8 ∧ (∀ c ∈ digits, ∃ n < 16, c = hexDigit n) ∧
    requestText (.dec32 hi v) = ['D', 'E', 'C', '3', '2', ' ', '0', 'x'] ++ digits) ∧
  (∀ v : BitVec 64, ∃ digits : List Char, digits.length = 16 ∧ (∀ c ∈ digits, ∃ n < 16, c = hexDigit n) ∧
    requestText (.dec64 v) = ['D', 'E', 'C', '6', '4', ' ', '0', 'x'] ++ digits) ∧
  ∀ i j : Instr, portRequestText i = portRequestText j → i = j
end

