-- ==== Sys2Proof/Laws/Classify.lean ====
section
/-! SUPPORT. The classification, one lemma per row of the table. -/

namespace Sys2Proof.Machine

variable {F : Format} {e : BitVec F.EW} {f : BitVec F.FW}

/-- `E_MAX` is not 0, so the first and the last rows of the table do not meet. -/
theorem eMax_ne_zero (F : Format) : BitVec.ofNat F.EW F.eMax ≠ 0 := by cases F <;> decide

theorem classify_zero (he : e = 0) (hf : f = 0) : classify F e f = .zero := if_pos ⟨he, hf⟩

theorem classify_subnormal (he : e = 0) (hf : f ≠ 0) : classify F e f = .subnormal := by
  rw [classify, if_neg (fun h => hf h.2), if_pos ⟨he, hf⟩]

theorem classify_infinity (he : e = BitVec.ofNat F.EW F.eMax) (hf : f = 0) : classify F e f = .infinity := by
  have h0 : e ≠ 0 := he ▸ eMax_ne_zero F
  rw [classify, if_neg (fun h => h0 h.1), if_neg (fun h => h0 h.1), if_pos ⟨he, hf⟩]

theorem classify_nan (he : e = BitVec.ofNat F.EW F.eMax) (hf : f ≠ 0) : classify F e f = .nan := by
  have h0 : e ≠ 0 := he ▸ eMax_ne_zero F
  rw [classify, if_neg (fun h => h0 h.1), if_neg (fun h => h0 h.1), if_neg (fun h => hf h.2), if_pos ⟨he, hf⟩]

theorem classify_normal (h0 : e ≠ 0) (h1 : e ≠ BitVec.ofNat F.EW F.eMax) : classify F e f = .normal := by
  rw [classify, if_neg (fun h => h0 h.1), if_neg (fun h => h0 h.1), if_neg (fun h => h1 h.1), if_neg (fun h => h1 h.1)]

theorem FpClass_code_le_four (c : FpClass) : c.code.toNat ≤ 4 := by cases c <;> decide

theorem FpClass_code_injective {c d : FpClass} (h : c.code = d.code) : c = d := by
  cases c <;> cases d <;> first | rfl | exact absurd h (by decide)

end Sys2Proof.Machine
end

