-- ==== Sys2Proof/Laws/Config.lean ====
section
/-! SUPPORT. The constants of the formats as numerals, and the relations among them that proofs over both formats need
(`00_scope.md` R5). -/

namespace Sys2Proof

@[simp] theorem Format.W_f32 : Format.f32.W = 32 := rfl
@[simp] theorem Format.W_f64 : Format.f64.W = 64 := rfl
@[simp] theorem Format.EW_f32 : Format.f32.EW = 8 := rfl
@[simp] theorem Format.EW_f64 : Format.f64.EW = 11 := rfl
@[simp] theorem Format.FW_f32 : Format.f32.FW = 23 := rfl
@[simp] theorem Format.FW_f64 : Format.f64.FW = 52 := rfl
@[simp] theorem Format.eMax_f32 : Format.f32.eMax = 255 := rfl
@[simp] theorem Format.eMax_f64 : Format.f64.eMax = 2047 := rfl
@[simp] theorem Format.bytes_f32 : Format.f32.bytes = 4 := rfl
@[simp] theorem Format.bytes_f64 : Format.f64.bytes = 8 := rfl

/-- The exponent field's range ends at `E_MAX`. -/
theorem Format.eMax_succ (F : Format) : F.eMax + 1 = 2 ^ F.EW := by cases F <;> rfl

/-- The storage bytes hold the value and nothing else. -/
theorem Format.eight_mul_bytes (F : Format) : 8 * F.bytes = F.W := by cases F <;> rfl

end Sys2Proof
end

