-- ==== Sys2Proof/Laws/Fields.lean ====
section
/-! SUPPORT. Field extraction, reconstruction and the port layer, each said once as slices and concatenations, so that later
proofs need neither shifts nor masks. -/

namespace Sys2Proof.Machine

/-! ## Bit vectors in general -/

/-- `40_decode.md` R71, law 2: shifting right and masking with ones is taking the slice. -/
theorem shift_mask_eq_slice {W : Nat} (v : BitVec W) (lo n : Nat) (h : lo + n ≤ W) :
    ((v >>> lo) &&& BitVec.ofNat W (2 ^ n - 1)).setWidth n = v.extractLsb' lo n := by
  apply BitVec.eq_of_getLsbD_eq
  intro i hi
  have hiW : i < W := by omega
  simp [BitVec.getLsbD_ofNat, Nat.testBit_two_pow_sub_one, hi, hiW]

/-- Three vectors, shifted to their places and or-ed, are their concatenation. -/
theorem or_terms_eq_append {a b c : Nat} (s : BitVec a) (e : BitVec b) (f : BitVec c) :
    s.setWidth (a + b + c) <<< (b + c) ||| e.setWidth (a + b + c) <<< c ||| f.setWidth (a + b + c) =
      s ++ e ++ f := by
  apply BitVec.eq_of_getLsbD_eq
  intro i hi
  simp only [BitVec.getLsbD_or, BitVec.getLsbD_shiftLeft, BitVec.getLsbD_setWidth, BitVec.getLsbD_append]
  by_cases h1 : i < c
  · have : i < b + c := by omega
    simp [h1, this, hi]
  · by_cases h2 : i < b + c
    · have h3 : i - c < b := by omega
      have h4 : i - c < a + b + c := by omega
      simp [h1, h2, h3, h4, hi, BitVec.getLsbD_of_ge f i (by omega)]
    · have h3 : ¬ (i - c < b) := by omega
      have h4 : i - (b + c) < a + b + c := by omega
      have h5 : i - c - b = i - (b + c) := by omega
      simp [h1, h2, h3, h4, h5, hi, BitVec.getLsbD_of_ge f i (by omega), BitVec.getLsbD_of_ge e (i - c) (by omega)]

/-- The upper part of a concatenation. -/
theorem slice_upper {b c : Nat} (e : BitVec b) (f : BitVec c) : (e ++ f).extractLsb' c b = e := by
  apply BitVec.eq_of_getLsbD_eq
  intro i hi
  simp [BitVec.getLsbD_append, hi]

/-- The lower part of a concatenation. -/
theorem slice_lower {b c : Nat} (e : BitVec b) (f : BitVec c) : (e ++ f).extractLsb' 0 c = f := by
  apply BitVec.eq_of_getLsbD_eq
  intro i hi
  simp [BitVec.getLsbD_append, hi]

/-- A slice that lies in the upper part of a concatenation. -/
theorem slice_of_upper {b c lo n : Nat} (e : BitVec b) (f : BitVec c) :
    (e ++ f).extractLsb' (c + lo) n = e.extractLsb' lo n := by
  apply BitVec.eq_of_getLsbD_eq
  intro i hi
  simp [BitVec.getLsbD_append, BitVec.getLsbD_extractLsb', show ¬ (c + lo + i < c) by omega,
    show c + lo + i - c = lo + i by omega]

/-- A slice that lies in the lower part of a concatenation. -/
theorem slice_of_lower {b c lo n : Nat} (e : BitVec b) (f : BitVec c) (h : lo + n ≤ c) :
    (e ++ f).extractLsb' lo n = f.extractLsb' lo n := by
  apply BitVec.eq_of_getLsbD_eq
  intro i hi
  simp [BitVec.getLsbD_append, BitVec.getLsbD_extractLsb', show lo + i < c by omega]

/-- Two slices that lie end to end, joined, are the vector. -/
theorem append_slices {b c : Nat} (v : BitVec (b + c)) : v.extractLsb' c b ++ v.extractLsb' 0 c = v := by
  apply BitVec.eq_of_getLsbD_eq
  intro i hi
  rw [BitVec.getLsbD_append, BitVec.getLsbD_extractLsb', BitVec.getLsbD_extractLsb']
  by_cases h : i < c
  · simp [h]
  · simp [h, show c + (i - c) = i by omega, show i - c < b by omega]

/-- Zero extension is concatenation with zeros. -/
theorem setWidth_eq_append {n : Nat} (m : Nat) (v : BitVec n) : v.setWidth (m + n) = 0#m ++ v := by
  apply BitVec.eq_of_getLsbD_eq
  intro i hi
  rw [BitVec.getLsbD_append, BitVec.getLsbD_setWidth, BitVec.getLsbD_zero]
  by_cases h : i < n
  · simp [h, hi]
  · simp [h, BitVec.getLsbD_of_ge v i (by omega)]

/-! ## Extraction -/

section
variable (F : Format) (v : BitVec F.W)

@[simp] theorem extract_raw : (extract F v).raw = v := rfl

theorem extract_sign : (extract F v).sign = v.extractLsb' (F.W - 1) 1 := by
  cases F
  · exact shift_mask_eq_slice (W := 32) v 31 1 (by omega)
  · exact shift_mask_eq_slice (W := 64) v 63 1 (by omega)

theorem extract_exponent : (extract F v).exponent = v.extractLsb' F.FW F.EW := by
  cases F
  · exact shift_mask_eq_slice (W := 32) v 23 8 (by omega)
  · exact shift_mask_eq_slice (W := 64) v 52 11 (by omega)

theorem extract_fraction : (extract F v).fraction = v.extractLsb' 0 F.FW := by
  cases F
  · have h := shift_mask_eq_slice (W := 32) v 0 23 (by omega)
    rwa [BitVec.ushiftRight_zero] at h
  · have h := shift_mask_eq_slice (W := 64) v 0 52 (by omega)
    rwa [BitVec.ushiftRight_zero] at h

end

theorem dec32_eq_slices (v : BitVec 32) :
    dec32 v = ⟨v, v.extractLsb' 31 1, v.extractLsb' 23 8, v.extractLsb' 0 23⟩ := by
  rw [dec32, FloatBits.mk.injEq]
  exact ⟨rfl, extract_sign .f32 v, extract_exponent .f32 v, extract_fraction .f32 v⟩

theorem dec64_eq_slices (v : BitVec 64) :
    dec64 v = ⟨v, v.extractLsb' 63 1, v.extractLsb' 52 11, v.extractLsb' 0 52⟩ := by
  rw [dec64, FloatBits.mk.injEq]
  exact ⟨rfl, extract_sign .f64 v, extract_exponent .f64 v, extract_fraction .f64 v⟩

/-! ## Reconstruction -/

theorem pack32_eq_append (s : BitVec 1) (e : BitVec 8) (f : BitVec 23) : pack .f32 s e f = s ++ e ++ f :=
  or_terms_eq_append s e f

theorem pack64_eq_append (s : BitVec 1) (e : BitVec 11) (f : BitVec 52) : pack .f64 s e f = s ++ e ++ f :=
  or_terms_eq_append s e f

/-! ## Ports -/

theorem toPorts_f32 (r : FloatBits32) :
    toPorts r = ⟨32#7, 0#32 ++ r.raw, r.sign, 0#3 ++ r.exponent, 0#29 ++ r.fraction,
      (class32 r.exponent r.fraction).code⟩ := by
  rw [toPorts, Response.mk.injEq]
  exact ⟨rfl, setWidth_eq_append 32 r.raw, rfl, setWidth_eq_append 3 r.exponent, setWidth_eq_append 29 r.fraction, rfl⟩

theorem toPorts_f64 (r : FloatBits64) :
    toPorts r = ⟨64#7, r.raw, r.sign, r.exponent, r.fraction, (class64 r.exponent r.fraction).code⟩ := by
  rw [toPorts, Response.mk.injEq]
  exact ⟨rfl, BitVec.setWidth_eq r.raw, rfl, BitVec.setWidth_eq r.exponent, BitVec.setWidth_eq r.fraction, rfl⟩

theorem resp_fmt0 {q : Request} (h : q.fmt = 0#1) : resp q = toPorts (dec32 q.lo) := if_pos h

theorem resp_fmt1 {q : Request} (h : q.fmt = 1#1) : resp q = toPorts (dec64 q.inBits) :=
  if_neg (by rw [h]; decide)

/-- The select has two values. -/
theorem fmt_cases (b : BitVec 1) : b = 0#1 ∨ b = 1#1 := by revert b; decide

end Sys2Proof.Machine
end

