-- ==== Sys2Proof/Laws/Decode.lean ====
section
/-! SUPPORT. The request word and the two arms of the decoder. -/

namespace Sys2Proof

theorem Request.word_fmt (q : Request) : q.word.extractLsb' 64 1 = q.fmt := Machine.slice_upper q.fmt q.inBits

theorem Request.word_inBits (q : Request) : q.word.extractLsb' 0 64 = q.inBits := Machine.slice_lower q.fmt q.inBits

theorem Request.word_hi (q : Request) : q.word.extractLsb' 32 32 = q.hi :=
  Machine.slice_of_lower (lo := 32) (n := 32) q.fmt q.inBits (by omega)

theorem Request.word_lo (q : Request) : q.word.extractLsb' 0 32 = q.lo :=
  Machine.slice_of_lower (lo := 0) (n := 32) q.fmt q.inBits (by omega)

/-- What a request with `fmt = 0` decodes to. -/
theorem decode_word_fmt0 {q : Request} (h : q.fmt = 0#1) : decode q.word = .dec32 q.hi q.lo := by
  rw [decode, Request.word_fmt, if_pos h, Request.word_hi, Request.word_lo]

/-- What a request with `fmt = 1` decodes to. -/
theorem decode_word_fmt1 {q : Request} (h : q.fmt = 1#1) : decode q.word = .dec64 q.inBits := by
  rw [decode, Request.word_fmt, if_neg (by rw [h]; decide), Request.word_inBits]

/-- Masking with bit 64 alone keeps `fmt` and nothing else. -/
theorem mask_top (w : ReqWord) : w &&& 0x10000000000000000#65 = w.extractLsb' 64 1 ++ 0#64 := by
  apply BitVec.eq_of_getLsbD_eq
  intro i hi
  have hm : 0x10000000000000000#65 = 1#1 ++ 0#64 := by decide
  rw [hm, BitVec.getLsbD_and, BitVec.getLsbD_append, BitVec.getLsbD_append, BitVec.getLsbD_extractLsb']
  by_cases h : i < 64
  · simp [h]
  · have h64 : i = 64 := by omega
    simp [h64]

/-- A number below 2^65 is a request word. -/
theorem reqWordOfNat_of_lt {w : Nat} (h : w < 2 ^ 65) : reqWordOfNat w = .ok (BitVec.ofNat 65 w) := if_pos h

end Sys2Proof
end

