-- ==== Sys2Proof/Laws/PerInstr.lean ====
section
/-! SUPPORT. Statements made per instruction. -/

namespace Sys2Proof.Laws

/-- `WordInRow`: an instruction's word belongs to its own row of the opcode table and to no other (`30_encoding.md`
R59). -/
def WordInRow.Statement (i : Instr) : Prop := ∀ r ∈ opcodeTable, r.selects (encode i) = decide (r = i.row)

theorem WordInRow.dec32 (hi v : BitVec 32) : WordInRow.Statement (.dec32 hi v) := by
  have h : encode (.dec32 hi v) &&& 0x10000000000000000#65 = 0#1 ++ 0#64 := by
    have hs : (encode (.dec32 hi v)).extractLsb' 64 1 = 0#1 := by
      refine (Machine.slice_of_upper (lo := 32) (n := 1) (0#1 ++ hi) v).trans (Machine.slice_upper 0#1 hi)
    rw [mask_top, hs]
  intro r hr
  simp only [opcodeTable, List.mem_cons, List.not_mem_nil, or_false] at hr
  rcases hr with rfl | rfl
  · show decide (encode (.dec32 hi v) &&& 0x10000000000000000#65 = 0#65) = decide (dec32Row = dec32Row)
    rw [h]; decide
  · show decide (encode (.dec32 hi v) &&& 0x10000000000000000#65 = 0x10000000000000000#65) =
      decide (dec64Row = dec32Row)
    rw [h]; decide

theorem WordInRow.dec64 (v : BitVec 64) : WordInRow.Statement (.dec64 v) := by
  have h : encode (.dec64 v) &&& 0x10000000000000000#65 = 1#1 ++ 0#64 := by
    have hs : (encode (.dec64 v)).extractLsb' 64 1 = 1#1 := Machine.slice_upper 1#1 v
    rw [mask_top, hs]
  intro r hr
  simp only [opcodeTable, List.mem_cons, List.not_mem_nil, or_false] at hr
  rcases hr with rfl | rfl
  · show decide (encode (.dec64 v) &&& 0x10000000000000000#65 = 0#65) = decide (dec32Row = dec64Row)
    rw [h]; decide
  · show decide (encode (.dec64 v) &&& 0x10000000000000000#65 = 0x10000000000000000#65) =
      decide (dec64Row = dec64Row)
    rw [h]; decide

end Sys2Proof.Laws
end

