-- ==== Sys2Proof/Laws/State.lean ====
section
/-! SUPPORT. One lemma per field per update of State, so that no proof unfolds a record update. -/

namespace Sys2Proof.Machine

section
variable (s : State) (q : Request) (rest : List Request) (r : Response)

@[simp] theorem State.present_block : (s.present q rest).block = s.block := rfl
@[simp] theorem State.present_inputs : (s.present q rest).inputs = some q := rfl
@[simp] theorem State.present_pending : (s.present q rest).pending = rest := rfl
@[simp] theorem State.present_answered : (s.present q rest).answered = s.answered := rfl

@[simp] theorem State.answer_block : (s.answer r).block = s.block := rfl
@[simp] theorem State.answer_inputs : (s.answer r).inputs = s.inputs := rfl
@[simp] theorem State.answer_pending : (s.answer r).pending = s.pending := rfl
@[simp] theorem State.answer_answered : (s.answer r).answered = s.answered ++ [r] := rfl

@[simp] theorem State.load_block : (s.load q).block = s.block := rfl
@[simp] theorem State.load_inputs : (s.load q).inputs = s.inputs := rfl
@[simp] theorem State.load_pending : (s.load q).pending = q :: s.pending := rfl
@[simp] theorem State.load_answered : (s.load q).answered = s.answered := rfl

/-- The output signals of a state with a request on its inputs are `RESP` of that request. -/
theorem State.outputs_of_inputs (h : s.inputs = some q) : s.outputs = some (resp q) := by
  rw [State.outputs, h]; rfl

/-- Reading a response does not change the output signals. -/
@[simp] theorem State.answer_outputs : (s.answer r).outputs = s.outputs := rfl

@[simp] theorem State.reset_inputs : State.reset.inputs = none := rfl
@[simp] theorem State.reset_pending : State.reset.pending = [] := rfl
@[simp] theorem State.reset_answered : State.reset.answered = [] := rfl

end

end Sys2Proof.Machine
end

