-- ==== Sys2Proof/Laws/Step.lean ====
section
/-! SUPPORT. Everything a transaction can do, said once. -/

namespace Sys2Proof.Machine

/-- The response that an operation gives; it does not depend on the state. -/
def answerOf : Instr → Response
  | .dec32 _ v => toPorts (dec32 v)
  | .dec64 v => toPorts (dec64 v)

/-- Everything `exec` does: it reads the operation's response, and nothing else changes. -/
theorem exec_eq_answer (i : Instr) (s : State) : exec i s = .next (s.answer (answerOf i)) := by
  cases i <;> rfl

theorem exec_next_iff {i : Instr} {s t : State} : exec i s = .next t ↔ t = s.answer (answerOf i) := by
  rw [exec_eq_answer]
  exact ⟨fun h => (Host.Outcome.next.inj h).symm, fun h => by rw [h]⟩

theorem fetch_of_pending {s : State} {q : Request} {rest : List Request} (h : s.pending = q :: rest) :
    fetch s = some (decode q.word, s.present q rest) := by rw [fetch, h]

theorem fetch_of_no_pending {s : State} (h : s.pending = []) : fetch s = none := by rw [fetch, h]

/-- Everything a step can do: with no request left nothing, else one transaction. -/
theorem step_cases (s : State) :
    (s.pending = [] ∧ step s = .next s) ∨
    ∃ q rest, s.pending = q :: rest ∧
      step s = .next ((s.present q rest).answer (answerOf (decode q.word))) := by
  cases h : s.pending with
  | nil => exact .inl ⟨rfl, by rw [step, fetch_of_no_pending h]⟩
  | cons q rest => exact .inr ⟨q, rest, rfl, by rw [step, fetch_of_pending h]; exact exec_eq_answer _ _⟩

/-- One step of a run that goes on. -/
theorem run_succ_of_next (M : Host.Core) (n : Nat) (s t : M.State) (h : M.step s = .next t) :
    M.run (n + 1) s = M.run n t := by rw [Host.Core.run, h]

/-- The same for this machine, over its own type of states. -/
theorem run_succ {s t : State} (n : Nat) (h : step s = .next t) :
    Host.Core.run Sys2Proof.core (n + 1) s = Host.Core.run Sys2Proof.core n t :=
  run_succ_of_next Sys2Proof.core n s t h

end Sys2Proof.Machine
end

