-- ==== Sys2Proof/Tests/Slice0.lean ====
section
/-! SUPPORT. Small tests, with expected results from the spec's own examples and vectors (each test names its source), and
for every statement with hypotheses a witness that meets them. -/

namespace Sys2Proof.Tests

open Sys2Proof Sys2Proof.Machine

/-- The state in which the host's list is `qs`. -/
def bench (qs : List Request) : State := { State.reset with pending := qs }

/-- `RESP(0, 0xDEADBEEF_40A00000)`, `40_decode.md` R76. -/
def q32 : Request := ⟨0#1, 0xDEADBEEF40A00000#64⟩

/-- `RESP(1, 0x3FB999999999999A)`, `40_decode.md` R76. -/
def q64 : Request := ⟨1#1, 0x3FB999999999999A#64⟩

/-- The response to `q32`, `40_decode.md` R76. -/
def r32 : Response := ⟨32#7, 0x0000000040A00000#64, 0#1, 0x081#11, 0x0000000200000#52, 2#3⟩

/-- The response to `q64`, `40_decode.md` R76. -/
def r64 : Response := ⟨64#7, 0x3FB999999999999A#64, 0#1, 0x3FB#11, 0x999999999999A#52, 2#3⟩

/-! ## Decoding, by words written out from `30_encoding.md` R59 -/

/-- `0`, 32 ignored bits, then the operand of S2 (`95_test_vectors.md` section 2). -/
theorem test_decode_dec32 :
    decode 0b01101111010101101101111101110111101000000101000000000000000000000#65 =
      .dec32 0xDEADBEEF#32 0x40A00000#32 := by decide

/-- `1`, then the operand of S5: sign, exponent, fraction as the section prints them. -/
theorem test_decode_dec64 :
    decode 0b10011111110111001100110011001100110011001100110011001100110011010#65 = .dec64 0x3FB999999999999A#64 := by
  decide

/-- The encoder on the same two operations. -/
theorem test_encode : encode (.dec32 0xDEADBEEF#32 0x40A00000#32) = 0x0DEADBEEF40A00000#65 ∧
    encode (.dec64 0x3FB999999999999A#64) = 0x13FB999999999999A#65 := by decide

/-- The host's numbering of the table's words, and the one refusal. -/
theorem test_decodeTableWord : decodeTableWord 72 0x13FB999999999999A = some (.dec64 0x3FB999999999999A#64) ∧
    decodeTableWord 65 0x0DEADBEEF40A00000 = some (.dec32 0xDEADBEEF#32 0x40A00000#32) ∧
    decodeTableWord 72 0x20000000000000000 = none := by decide

/-! ## Operations -/

/-- `95_test_vectors.md` section 6, second row, through one step from reset. -/
theorem test_step_dec32 : step (State.reset.withFetchWord 72 0x0DEADBEEF40A00000) =
    .next ⟨⟨⟩, some q32, [], [r32]⟩ := rfl

/-- `95_test_vectors.md` section 6, seventh row. -/
theorem test_step_dec64 : step (State.reset.withFetchWord 72 0x13FB999999999999A) =
    .next ⟨⟨⟩, some q64, [], [r64]⟩ := rfl

/-- `95_test_vectors.md` section 3.1: a NaN's payload comes out whole, and the sign of -0.0 is kept. -/
theorem test_dec32_corners : dec32 0x7FC00001#32 = ⟨0x7FC00001#32, 0#1, 0xFF#8, 0x400001#23⟩ ∧
    dec32 0x80000000#32 = ⟨0x80000000#32, 1#1, 0#8, 0#23⟩ ∧
    dec32 0xAAAAAAAA#32 = ⟨0xAAAAAAAA#32, 1#1, 85#8, 2796202#23⟩ := by decide

/-- `95_test_vectors.md` section 3.2. -/
theorem test_dec64_corners : dec64 0xDEADBEEFCAFEF00D#64 = ⟨0xDEADBEEFCAFEF00D#64, 1#1, 1514#11, 3869111809404941#52⟩ ∧
    dec64 0x0010000000000000#64 = ⟨0x0010000000000000#64, 0#1, 1#11, 0#52⟩ := by decide

/-- `95_test_vectors.md` sections 6 and 9: `E_MAX` is taken per format. -/
theorem test_eMax_per_format : (resp ⟨0#1, 0x7F800000#64⟩).cls = 3#3 ∧ (resp ⟨1#1, 0x0FF0000000000000#64⟩).cls = 2#3 ∧
    (resp ⟨0#1, 0x8000000000000000#64⟩).cls = 0#3 ∧ (resp ⟨1#1, 0x0000000080000000#64⟩).cls = 1#3 := by decide

/-- `95_test_vectors.md` section 4, both sides of the boundaries. -/
theorem test_class_boundaries : class32 0x00#8 0x000001#23 = .subnormal ∧ class32 0x01#8 0#23 = .normal ∧
    class32 0xFE#8 0x7FFFFF#23 = .normal ∧ class32 0xFF#8 0#23 = .infinity ∧ class32 0xFF#8 0x000001#23 = .nan ∧
    class64 0x0FF#11 0#52 = .normal ∧ class64 0x7FE#11 0xFFFFFFFFFFFFF#52 = .normal ∧
    class64 0x7FF#11 0#52 = .infinity := by decide

/-- `95_test_vectors.md` section 5.1. -/
theorem test_pack : pack32 1#1 0x7F#8 0#23 = 0xBF800000#32 ∧ pack64 0#1 0x3FB#11 0x999999999999A#52 = 0x3FB999999999999A#64 := by
  decide

/-- `95_test_vectors.md` section 5.3. -/
theorem test_negate : negate .f32 0x3DCCCCCD#32 = 0xBDCCCCCD#32 ∧ negate .f64 0x7FF8000000000001#64 = 0xFFF8000000000001#64 := by
  decide

/-- `95_test_vectors.md` section 7. -/
theorem test_storage_bytes : bytesToRaw .f32 .little #v[0xCD, 0xCC, 0xCC, 0x3D] = 0x3DCCCCCD#32 ∧
    bytesToRaw .f32 .big #v[0x3D, 0xCC, 0xCC, 0xCD] = 0x3DCCCCCD#32 ∧
    rawToBytes .f64 .little 0x3FB999999999999A#64 = #v[0x9A, 0x99, 0x99, 0x99, 0x99, 0x99, 0xB9, 0x3F] := by decide

/-- `30_encoding.md` R63, the first example line. -/
theorem test_text_dec32 : String.ofList (transactionText (.dec32 0#32 0x40A00000#32)) =
    "DEC32 0x40A00000 -> width=32 raw=0x40A00000 sign=0 exponent=0x81 fraction=0x200000 cls=NORMAL" := by decide

/-- `30_encoding.md` R63, the second example line. -/
theorem test_text_dec64 : String.ofList (transactionText (.dec64 0x3FB999999999999A#64)) =
    "DEC64 0x3FB999999999999A -> width=64 raw=0x3FB999999999999A sign=0 exponent=0x3FB fraction=0x999999999999A cls=NORMAL" := by
  decide

/-- `95_test_vectors.md` P4, first line. -/
theorem test_text_port : String.ofList (portRequestText (.dec32 0xDEADBEEF#32 0x40A00000#32)) =
    "DEC32 0x40A00000 hi=0xDEADBEEF" := by decide

/-! ## Well-formedness: an ill-formed response for each check. Every instruction is well-formed (`30_encoding.md` R60), so
`Instr.wf` has no ill-formed term. -/

theorem test_wf_accepts : r32.wf = true ∧ r64.wf = true ∧ (Instr.dec32 0#32 0#32).wf = true := by decide

theorem test_wf_refuses_width : Response.widthOk ⟨65#7, 0, 0, 0, 0, 0⟩ = false ∧
    Response.wf ⟨65#7, 0, 0, 0, 0, 0⟩ = false := by decide

theorem test_wf_refuses_code : Response.clsInRange ⟨64#7, 0, 0, 0, 0, 5#3⟩ = false ∧
    Response.wf ⟨64#7, 0, 0, 0, 0, 5#3⟩ = false := by decide

/-- The upper operand half copied to `raw` (`95_test_vectors.md` section 9). -/
theorem test_wf_refuses_padding : Response.paddingZero { r32 with raw := 0xDEADBEEF40A00000#64 } = false ∧
    Response.wf { r32 with raw := 0xDEADBEEF40A00000#64 } = false := by decide

/-- The bias subtracted (`95_test_vectors.md` section 9). -/
theorem test_wf_refuses_fields : Response.fieldsArePartition { r32 with exponent := 2#11 } = false ∧
    Response.wf { r32 with exponent := 2#11 } = false := by decide

theorem test_wf_refuses_class : Response.clsOfFields { r64 with cls := 3#3 } = false ∧
    Response.wf { r64 with cls := 3#3 } = false := by decide

/-! ## Witnesses: the hypotheses of each statement, met -/

theorem witness_FieldsPartitionRaw : 31 < Format.f32.W ∧
    ((extract .f32 0x80000000#32).sign.setWidth Format.f32.W <<< (Format.f32.W - 1)).getLsbD 31 = true ∧
    ((extract .f32 0x40800000#32).exponent.setWidth Format.f32.W <<< Format.f32.FW).getLsbD 30 = true ∧
    ((extract .f32 0x40800000#32).exponent.setWidth Format.f32.W <<< Format.f32.FW).getLsbD 23 = true ∧
    ((extract .f32 0x00400000#32).fraction.setWidth Format.f32.W).getLsbD 22 = true := by decide

theorem witness_DecodeAndPackAreInverse : (extract .f32 0x40A00000#32).sign = (extract .f32 0x40A00000#32).sign ∧
    (extract .f32 0x40A00000#32).exponent = 0x81#8 ∧ (extract .f32 0x40A00000#32).fraction = 0x200000#23 := by decide

theorem witness_NegationChangesSignOnly : 31 < Format.f32.W ∧ 30 < Format.f32.W ∧ 31 = Format.f32.W - 1 ∧
    30 ≠ Format.f32.W - 1 := by decide

theorem witness_ClassThirtyTwoTruthTable : 0x000001#23 ≤ 0x000001#23 ∧ 0x000001#23 ≤ 0x7FFFFF#23 ∧
    (0x01#8 ≤ 0x01#8 ∧ 0x01#8 ≤ 0xFE#8) ∧ (0x01#8 ≤ 0xFE#8 ∧ 0xFE#8 ≤ 0xFE#8) := by decide

theorem witness_ClassSixtyFourTruthTable : 0x0000000000001#52 ≤ 0x0000000000001#52 ∧
    0x0000000000001#52 ≤ 0xFFFFFFFFFFFFF#52 ∧ (0x001#11 ≤ 0x001#11 ∧ 0x001#11 ≤ 0x7FE#11) ∧
    (0x001#11 ≤ 0x7FE#11 ∧ 0x7FE#11 ≤ 0x7FE#11) := by decide

theorem witness_ClassCodes : FpClass.nan.code = FpClass.nan.code := rfl

theorem witness_DecodeOfEncodeIsOperation : (Instr.dec32 0xDEADBEEF#32 0x40A00000#32).wf = true ∧
    (Instr.dec64 0xFFFFFFFFFFFFFFFF#64).wf = true := by decide

theorem witness_OutputCodesThatNeverOccur : q32.fmt = 0#1 := rfl

theorem witness_ClassCodeOfPortValues : 0x0FF#11 = (if q32.fmt = 0#1 then 0x0FF#11 else 0x7FF#11) ∧
    0x7FF#11 = (if q64.fmt = 0#1 then 0x0FF#11 else 0x7FF#11) := by decide

theorem witness_OperationsFrame : exec (.dec32 0xDEADBEEF#32 0x40A00000#32) (bench [q64]) =
      .next { bench [q64] with answered := [r32] } ∧
    exec (.dec64 0x3FB999999999999A#64) (bench [q32]) = .next { bench [q32] with answered := [r64] } := ⟨rfl, rfl⟩

theorem witness_NoFaultAndNoRefusal : (bench [q32, q64]).pending = q32 :: [q64] := rfl

theorem witness_BlockHasOneState : step (bench [q32]) = .next ⟨⟨⟩, some q32, [], [r32]⟩ := rfl

theorem witness_StepRunsDecodedOperation : (bench [q32, q64]).pending = q32 :: [q64] ∧
    decode q32.word = .dec32 0xDEADBEEF#32 0x40A00000#32 := by decide

theorem witness_StepWithNoRequestLeft : (bench []).pending = [] := rfl

theorem witness_StepAnswersWithPortFunction : (bench [q64]).pending = q64 :: [] := rfl

theorem witness_ResponseDependsOnRequestAlone : (bench [q32, q64]).pending = q32 :: [q64] ∧
    ({ bench [q32] with answered := [r64], inputs := some q64 } : State).pending = q32 :: [] := ⟨rfl, rfl⟩

theorem witness_HeldRequestKeepsResponse : (bench [q32]).pending = [q32] := rfl

theorem witness_AnyOrderSameResponses : (bench [q32, q64]).answered = [] ∧ (bench [q64, q32]).answered = [] ∧
    (bench [q32, q64]).pending.Perm (bench [q64, q32]).pending := ⟨rfl, rfl, List.Perm.swap q64 q32 []⟩

theorem witness_StepKeepsSound : (⟨⟨⟩, some q32, [q64], [r32]⟩ : State).Sound ∧
    step ⟨⟨⟩, some q32, [q64], [r32]⟩ = .next ⟨⟨⟩, some q64, [], [r32, r64]⟩ := by
  refine ⟨⟨?_, rfl⟩, rfl⟩
  intro r hr
  rw [List.mem_singleton.mp hr]
  decide

theorem witness_LoadedWordRunsNext : 65 ≤ 72 ∧ 0x1FFFFFFFFFFFFFFFF < 2 ^ 65 ∧ 65 ≤ 65 := by decide

theorem witness_WiderNumbersRefused : 2 ^ 65 ≤ 2 ^ 65 % 2 ^ 72 := by decide

theorem witness_StorageBytesInPlace : 0 < Format.f32.bytes ∧ 3 < Format.f32.bytes ∧ 7 < Format.f64.bytes := by decide

theorem witness_WrittenLineNamesOperation : ('A' ∈ hexDigits 8 0xDEADBEEF) ∧
    portRequestText (.dec64 0#64) = portRequestText (.dec64 (0#32 ++ 0#32)) := by decide

end Sys2Proof.Tests
end

section
/-! The operand is taken bit for bit (`20_memory.md` R31): what the member `raw` of either decode holds. -/

namespace Sys2Proof.Machine

@[simp] theorem dec32_raw (v : BitVec 32) : (dec32 v).raw = v := extract_raw .f32 v

@[simp] theorem dec64_raw (v : BitVec 64) : (dec64 v).raw = v := extract_raw .f64 v

/-- Settles O5: `raw` of either format is `raw` of `extract`, which passes the operand through; the rule's example `1.0`
is one of the patterns of the 32-bit format. -/
theorem rawIsTheOperand : Obligations.RawIsTheOperand :=
  ⟨dec32_raw, dec64_raw, dec32_raw 0x3F800000#32⟩

end Sys2Proof.Machine
end

section
/-! The layout of the two operand formats (`30_encoding.md` R52, R53): the fields of either decode as slices, a slice as
shift and mask at the full width, and the three slices joined. -/

namespace Sys2Proof.Machine

/-! ## Slices in general -/

/-- A slice, zero-extended back, is the vector shifted right and masked with ones. -/
theorem setWidth_slice_eq_shift_mask {W : Nat} (v : BitVec W) (lo n : Nat) :
    (v.extractLsb' lo n).setWidth W = (v >>> lo) &&& BitVec.ofNat W (2 ^ n - 1) := by
  apply BitVec.eq_of_getLsbD_eq
  intro i hi
  rw [BitVec.getLsbD_setWidth, BitVec.getLsbD_extractLsb', BitVec.getLsbD_and, BitVec.getLsbD_ushiftRight,
    BitVec.getLsbD_ofNat, Nat.testBit_two_pow_sub_one]
  simp [hi, Bool.and_comm]

/-- The lowest slice needs no shift. -/
theorem setWidth_low_slice_eq_mask {W : Nat} (v : BitVec W) (n : Nat) :
    (v.extractLsb' 0 n).setWidth W = v &&& BitVec.ofNat W (2 ^ n - 1) := by
  rw [setWidth_slice_eq_shift_mask, BitVec.ushiftRight_zero]

/-- Three slices that lie end to end, joined, are the vector. -/
theorem append_three_slices {a b c : Nat} (v : BitVec (a + b + c)) :
    v.extractLsb' (c + b) a ++ v.extractLsb' c b ++ v.extractLsb' 0 c = v := by
  have upper : v.extractLsb' (c + b) a ++ v.extractLsb' c b = v.extractLsb' c (a + b) :=
    BitVec.extractLsb'_append_extractLsb'_eq_extractLsb' rfl
  rw [upper, append_slices]

/-! ## The fields of the two decodes -/

theorem dec32_sign (v : BitVec 32) : (dec32 v).sign = v.extractLsb' 31 1 := extract_sign .f32 v

theorem dec32_exponent (v : BitVec 32) : (dec32 v).exponent = v.extractLsb' 23 8 := extract_exponent .f32 v

theorem dec32_fraction (v : BitVec 32) : (dec32 v).fraction = v.extractLsb' 0 23 := extract_fraction .f32 v

theorem dec64_sign (v : BitVec 64) : (dec64 v).sign = v.extractLsb' 63 1 := extract_sign .f64 v

theorem dec64_exponent (v : BitVec 64) : (dec64 v).exponent = v.extractLsb' 52 11 := extract_exponent .f64 v

theorem dec64_fraction (v : BitVec 64) : (dec64 v).fraction = v.extractLsb' 0 52 := extract_fraction .f64 v

theorem dec32_fields_append (v : BitVec 32) : (dec32 v).sign ++ (dec32 v).exponent ++ (dec32 v).fraction = v := by
  rw [dec32_sign, dec32_exponent, dec32_fraction]
  exact append_three_slices (a := 1) (b := 8) (c := 23) v

theorem dec64_fields_append (v : BitVec 64) : (dec64 v).sign ++ (dec64 v).exponent ++ (dec64 v).fraction = v := by
  rw [dec64_sign, dec64_exponent, dec64_fraction]
  exact append_three_slices (a := 1) (b := 11) (c := 52) v

/-! ## The statements -/

/-- Settles O2: each field is a slice of the operand, a slice is a shift and mask, and the three slices lie end to end. -/
theorem thirtyTwoBitLayout : Obligations.ThirtyTwoBitLayout := by
  intro v
  have exponent_mask : (dec32 v).exponent.setWidth 32 = (v >>> 23) &&& 0xFF#32 := by
    rw [dec32_exponent]
    exact setWidth_slice_eq_shift_mask v 23 8
  have fraction_mask : (dec32 v).fraction.setWidth 32 = v &&& 0x7FFFFF#32 := by
    rw [dec32_fraction]
    exact setWidth_low_slice_eq_mask v 23
  exact ⟨dec32_sign v, dec32_exponent v, exponent_mask, dec32_fraction v, fraction_mask, dec32_fields_append v⟩

/-- Settles O3: the same argument with the widths of the 64-bit format. -/
theorem sixtyFourBitLayout : Obligations.SixtyFourBitLayout := by
  intro v
  have exponent_mask : (dec64 v).exponent.setWidth 64 = (v >>> 52) &&& 0x7FF#64 := by
    rw [dec64_exponent]
    exact setWidth_slice_eq_shift_mask v 52 11
  have fraction_mask : (dec64 v).fraction.setWidth 64 = v &&& 0xFFFFFFFFFFFFF#64 := by
    rw [dec64_fraction]
    exact setWidth_low_slice_eq_mask v 52
  exact ⟨dec64_sign v, dec64_exponent v, exponent_mask, dec64_fraction v, fraction_mask, dec64_fields_append v⟩

end Sys2Proof.Machine
end

section
/-! The classification table (`41_classify.md` R80 to R82): the condition of each row on the numbers of the two fields,
that `classify` gives a class exactly where its row applies, and the truth table by ranges, once for both formats. -/

namespace Sys2Proof.Machine

/-- The condition of each row of the table (`41_classify.md` R80). -/
def ClassRow (F : Format) (e : BitVec F.EW) (f : BitVec F.FW) : FpClass → Prop
  | .zero => e.toNat = 0 ∧ f.toNat = 0
  | .subnormal => e.toNat = 0 ∧ f.toNat ≠ 0
  | .normal => 0 < e.toNat ∧ e.toNat < F.eMax
  | .infinity => e.toNat = F.eMax ∧ f.toNat = 0
  | .nan => e.toNat = F.eMax ∧ f.toNat ≠ 0

section
variable {F : Format} {e : BitVec F.EW} {f : BitVec F.FW}

theorem exponent_le_eMax (e : BitVec F.EW) : e.toNat ≤ F.eMax := by
  have top := F.eMax_succ
  have bound := e.isLt
  omega

theorem eq_zero_iff_toNat {n : Nat} {x : BitVec n} : x = 0 ↔ x.toNat = 0 := BitVec.toNat_inj.symm

theorem eq_eMax_iff_toNat : e = BitVec.ofNat F.EW F.eMax ↔ e.toNat = F.eMax := by
  have fits : F.eMax < 2 ^ F.EW := F.eMax_succ ▸ Nat.lt_succ_self F.eMax
  rw [← BitVec.toNat_inj, BitVec.toNat_ofNat, Nat.mod_eq_of_lt fits]

/-- The class of two fields is that of a row that applies to them: exponent 0, exponent `E_MAX`, or in between. -/
theorem classRow_classify (e : BitVec F.EW) (f : BitVec F.FW) : ClassRow F e f (classify F e f) := by
  by_cases he : e = 0
  · have he' := eq_zero_iff_toNat.mp he
    by_cases hf : f = 0
    · rw [classify_zero he hf]
      exact ⟨he', eq_zero_iff_toNat.mp hf⟩
    · rw [classify_subnormal he hf]
      exact ⟨he', mt eq_zero_iff_toNat.mpr hf⟩
  by_cases hm : e = BitVec.ofNat F.EW F.eMax
  · have hm' := eq_eMax_iff_toNat.mp hm
    by_cases hf : f = 0
    · rw [classify_infinity hm hf]
      exact ⟨hm', eq_zero_iff_toNat.mp hf⟩
    · rw [classify_nan hm hf]
      exact ⟨hm', mt eq_zero_iff_toNat.mpr hf⟩
  · rw [classify_normal he hm]
    exact ⟨Nat.pos_of_ne_zero (mt eq_zero_iff_toNat.mpr he),
      lt_of_le_of_ne (exponent_le_eMax e) (mt eq_eMax_iff_toNat.mpr hm)⟩

theorem classify_of_classRow : ∀ {c : FpClass}, ClassRow F e f c → classify F e f = c
  | .zero, ⟨he, hf⟩ => classify_zero (eq_zero_iff_toNat.mpr he) (eq_zero_iff_toNat.mpr hf)
  | .subnormal, ⟨he, hf⟩ => classify_subnormal (eq_zero_iff_toNat.mpr he) (mt eq_zero_iff_toNat.mp hf)
  | .normal, ⟨low, high⟩ =>
    classify_normal (mt eq_zero_iff_toNat.mp low.ne') (mt eq_eMax_iff_toNat.mp high.ne)
  | .infinity, ⟨he, hf⟩ => classify_infinity (eq_eMax_iff_toNat.mpr he) (eq_zero_iff_toNat.mpr hf)
  | .nan, ⟨he, hf⟩ => classify_nan (eq_eMax_iff_toNat.mpr he) (mt eq_zero_iff_toNat.mp hf)

theorem classify_eq_iff (c : FpClass) : classify F e f = c ↔ ClassRow F e f c :=
  ⟨fun h => h ▸ classRow_classify e f, classify_of_classRow⟩

/-! ## The ranges of the truth table -/

theorem ne_zero_of_one_le {n : Nat} (hn : 0 < n) {x : BitVec n} (h : 1#n ≤ x) : x ≠ 0 := by
  rw [BitVec.le_def, BitVec.toNat_one hn] at h
  exact mt eq_zero_iff_toNat.mp (Nat.ne_of_gt h)

theorem ne_eMax_of_le_pred (h : e ≤ BitVec.ofNat F.EW (F.eMax - 1)) : e ≠ BitVec.ofNat F.EW F.eMax := by
  rintro rfl
  have above : ¬ BitVec.ofNat F.EW F.eMax ≤ BitVec.ofNat F.EW (F.eMax - 1) := by cases F <;> decide
  exact above h

end

theorem classify_on_ranges (F : Format) :
    classify F 0 0 = .zero ∧
    (∀ f, 1#F.FW ≤ f → classify F 0 f = .subnormal) ∧
    (∀ e f, 1#F.EW ≤ e → e ≤ BitVec.ofNat F.EW (F.eMax - 1) → classify F e f = .normal) ∧
    classify F (BitVec.ofNat F.EW F.eMax) 0 = .infinity ∧
    ∀ f, 1#F.FW ≤ f → classify F (BitVec.ofNat F.EW F.eMax) f = .nan := by
  have hEW : 0 < F.EW := by cases F <;> decide
  have hFW : 0 < F.FW := by cases F <;> decide
  exact ⟨classify_zero rfl rfl,
    fun _ hf => classify_subnormal rfl (ne_zero_of_one_le hFW hf),
    fun _ _ low high => classify_normal (ne_zero_of_one_le hEW low) (ne_eMax_of_le_pred high),
    classify_infinity rfl rfl,
    fun _ hf => classify_nan rfl (ne_zero_of_one_le hFW hf)⟩

/-! ## The statements -/

/-- Settles O13: a class is given exactly where its row applies. -/
theorem classificationTable : Obligations.ClassificationTable :=
  ⟨rfl, rfl, fun _ _ _ => ⟨classify_eq_iff .zero, classify_eq_iff .subnormal, classify_eq_iff .normal,
    classify_eq_iff .infinity, classify_eq_iff .nan⟩⟩

/-- Settles O14: the ranges of the 32-bit format, where `E_MAX` is 0xFF. -/
theorem classThirtyTwoTruthTable : Obligations.ClassThirtyTwoTruthTable := classify_on_ranges .f32

/-- Settles O15: the ranges of the 64-bit format, where `E_MAX` is 0x7FF. -/
theorem classSixtyFourTruthTable : Obligations.ClassSixtyFourTruthTable := classify_on_ranges .f64

end Sys2Proof.Machine
end

section
/-! Reconstruction (`42_laws.md` R90, R91): `PACK` of either format as the or of its three terms and as the joined fields,
and the round trip from an operand through its fields. -/

namespace Sys2Proof.Machine

/-! ## `PACK` of any fields -/

theorem pack32_eq_or (s : BitVec 1) (e : BitVec 8) (f : BitVec 23) :
    pack32 s e f = (s.setWidth 32 <<< 31) ||| (e.setWidth 32 <<< 23) ||| f.setWidth 32 := rfl

theorem pack64_eq_or (s : BitVec 1) (e : BitVec 11) (f : BitVec 52) :
    pack64 s e f = (s.setWidth 64 <<< 63) ||| (e.setWidth 64 <<< 52) ||| f.setWidth 64 := rfl

/-! ## `PACK` of the fields of a decode -/

theorem pack32_dec32 (v : BitVec 32) : pack32 (dec32 v).sign (dec32 v).exponent (dec32 v).fraction = v :=
  calc pack32 (dec32 v).sign (dec32 v).exponent (dec32 v).fraction
    _ = (dec32 v).sign ++ (dec32 v).exponent ++ (dec32 v).fraction := pack32_eq_append _ _ _
    _ = v := dec32_fields_append v

theorem pack64_dec64 (v : BitVec 64) : pack64 (dec64 v).sign (dec64 v).exponent (dec64 v).fraction = v :=
  calc pack64 (dec64 v).sign (dec64 v).exponent (dec64 v).fraction
    _ = (dec64 v).sign ++ (dec64 v).exponent ++ (dec64 v).fraction := pack64_eq_append _ _ _
    _ = v := dec64_fields_append v

/-! ## The statements -/

/-- Settles O8: `PACK` joins the fields, the fields of a decode joined are the operand, and so is its `raw`. -/
theorem packOfDecodeIsRaw : Obligations.PackOfDecodeIsRaw :=
  ⟨fun v => ⟨(pack32_dec32 v).trans (dec32_raw v).symm, dec32_raw v⟩,
    fun v => ⟨(pack64_dec64 v).trans (dec64_raw v).symm, dec64_raw v⟩⟩

/-- Settles O6: the or is the definition of `PACK`, and three fields shifted to their places and or-ed are their
concatenation. -/
theorem packJoinsFields : Obligations.PackJoinsFields :=
  ⟨fun s e f => ⟨pack32_eq_or s e f, pack32_eq_append s e f⟩,
    fun s e f => ⟨pack64_eq_or s e f, pack64_eq_append s e f⟩⟩

end Sys2Proof.Machine
end

section
/-! Extraction and `PACK` undo each other, in either format (`42_laws.md` R91, R95), and each field as an unsigned number
(`40_decode.md` R70, R71). -/

namespace Sys2Proof.Machine

/-! ## Decodes of joined fields -/

/-- The middle one of three joined vectors. -/
theorem slice_middle {a b c : Nat} (s : BitVec a) (e : BitVec b) (f : BitVec c) :
    (s ++ e ++ f).extractLsb' c b = e :=
  (slice_of_upper (lo := 0) (s ++ e) f).trans (slice_lower s e)

/-- The first one of three joined vectors. -/
theorem slice_first {a b c : Nat} (s : BitVec a) (e : BitVec b) (f : BitVec c) :
    (s ++ e ++ f).extractLsb' (c + b) a = s :=
  (slice_of_upper (s ++ e) f).trans (slice_upper s e)

theorem dec32_append (s : BitVec 1) (e : BitVec 8) (f : BitVec 23) : dec32 (s ++ e ++ f) = ⟨s ++ e ++ f, s, e, f⟩ := by
  rw [dec32_eq_slices, FloatBits.mk.injEq]
  exact ⟨rfl, slice_first s e f, slice_middle s e f, slice_lower (s ++ e) f⟩

theorem dec64_append (s : BitVec 1) (e : BitVec 11) (f : BitVec 52) :
    dec64 (s ++ e ++ f) = ⟨s ++ e ++ f, s, e, f⟩ := by
  rw [dec64_eq_slices, FloatBits.mk.injEq]
  exact ⟨rfl, slice_first s e f, slice_middle s e f, slice_lower (s ++ e) f⟩

/-! ## Both directions of the round trip -/

theorem extract_pack (F : Format) (s : BitVec 1) (e : BitVec F.EW) (f : BitVec F.FW) :
    extract F (pack F s e f) = ⟨pack F s e f, s, e, f⟩ := by
  cases F with
  | f32 => rw [pack32_eq_append]; exact dec32_append s e f
  | f64 => rw [pack64_eq_append]; exact dec64_append s e f

theorem pack_extract (F : Format) (v : BitVec F.W) :
    pack F (extract F v).sign (extract F v).exponent (extract F v).fraction = v := by
  cases F with
  | f32 => exact pack32_dec32 v
  | f64 => exact pack64_dec64 v

theorem eq_of_fields_eq {F : Format} {v w : BitVec F.W} (hs : (extract F v).sign = (extract F w).sign)
    (he : (extract F v).exponent = (extract F w).exponent) (hf : (extract F v).fraction = (extract F w).fraction) :
    v = w := by
  rw [← pack_extract F v, hs, he, hf, pack_extract]

theorem existsUnique_fields (F : Format) (s : BitVec 1) (e : BitVec F.EW) (f : BitVec F.FW) :
    ∃! v : BitVec F.W, (extract F v).sign = s ∧ (extract F v).exponent = e ∧ (extract F v).fraction = f := by
  refine ⟨pack F s e f, by simp only [extract_pack, and_self], ?_⟩
  rintro v ⟨rfl, rfl, rfl⟩
  exact (pack_extract F v).symm

/-- Settles O11: the fields of `PACK` are its arguments, so a pattern with given fields exists, and `PACK` of the fields is
the pattern, so it is the only one. -/
theorem decodeAndPackAreInverse : Obligations.DecodeAndPackAreInverse := by
  intro F
  exact ⟨fun s e f => ⟨extract_pack F s e f, existsUnique_fields F s e f⟩, fun _ _ => eq_of_fields_eq⟩

/-! ## The fields as numbers -/

/-- A slice as the number that division and remainder give. -/
theorem slice_toNat {W : Nat} (v : BitVec W) (lo n : Nat) : (v.extractLsb' lo n).toNat = v.toNat / 2 ^ lo % 2 ^ n := by
  rw [BitVec.extractLsb'_toNat, Nat.shiftRight_eq_div_pow]

/-- Above the sign bit nothing is left, so its number needs no remainder. -/
theorem extract_sign_toNat (F : Format) (v : BitVec F.W) : (extract F v).sign.toNat = v.toNat / 2 ^ (F.W - 1) := by
  have bound : v.toNat / 2 ^ (F.W - 1) < 2 ^ 1 := by
    apply Nat.div_lt_of_lt_mul
    rw [← pow_add, Nat.sub_add_cancel (by cases F <;> decide)]
    exact v.isLt
  rw [extract_sign, slice_toNat, Nat.mod_eq_of_lt bound]

theorem extract_exponent_toNat (F : Format) (v : BitVec F.W) :
    (extract F v).exponent.toNat = v.toNat / 2 ^ F.FW % 2 ^ F.EW := by
  rw [extract_exponent, slice_toNat]

theorem extract_fraction_toNat (F : Format) (v : BitVec F.W) : (extract F v).fraction.toNat = v.toNat % 2 ^ F.FW := by
  rw [extract_fraction, slice_toNat, pow_zero, Nat.div_one]

/-- Settles O4: each field is a slice, and a slice is a quotient's remainder. -/
theorem fieldsAsUnsignedNumbers : Obligations.FieldsAsUnsignedNumbers :=
  fun F v => ⟨extract_raw F v, rfl, extract_sign_toNat F v, extract_exponent_toNat F v, extract_fraction_toNat F v⟩

end Sys2Proof.Machine
end

section
/-! The constants of the formats (`00_scope.md` R5), the three terms of the partition and the bits that each occupies
(`10_state.md` R18, `42_laws.md` R92), and the pattern with its top bit inverted (R93). -/

namespace Sys2Proof.Machine

/-! ## Constants -/

theorem W_eq_sum (F : Format) : F.W = 1 + F.EW + F.FW := by cases F <;> rfl

theorem expMask_eq_ones (F : Format) : F.expMask = 2 ^ F.EW - 1 := by cases F <;> rfl

theorem fracMask_eq_ones (F : Format) : F.fracMask = 2 ^ F.FW - 1 := by cases F <;> rfl

theorem eMax_eq_expMask (F : Format) : F.eMax = F.expMask := by cases F <;> rfl

theorem positions_of_widths (F : Format) : F.signPos = F.W - 1 ∧ F.expHi = F.W - 2 ∧ F.expLo = F.FW ∧
    F.fracHi = F.FW - 1 ∧ F.fracLo = 0 := by cases F <;> decide

/-- Settles O1: the numbers are the table's, and the relations hold for each format. -/
theorem formatConstantsAgree : Obligations.FormatConstantsAgree := by
  refine ⟨rfl, rfl, fun F => ?_⟩
  obtain ⟨sign, expHi, expLo, fracHi, fracLo⟩ := positions_of_widths F
  exact ⟨W_eq_sum F, sign, expHi, expLo, fracHi, fracLo, expMask_eq_ones F, fracMask_eq_ones F, eMax_eq_expMask F⟩

/-- Settles O10: the terms of the all-ones fields, evaluated. -/
theorem inPlaceMasks : Obligations.InPlaceMasks := ⟨by decide, by decide⟩

/-! ## The bits of each term -/

section
variable {F : Format} {i : Nat}

theorem signTerm_bit {s : BitVec 1} (h : (signTerm F s).getLsbD i = true) : i = F.W - 1 := by
  have below := BitVec.lt_of_getLsbD h
  rw [signTerm, BitVec.getLsbD_shiftLeft, Bool.and_eq_true, Bool.and_eq_true, Bool.not_eq_true',
    decide_eq_false_iff_not] at h
  obtain ⟨⟨-, above⟩, -⟩ := h
  omega

theorem exponentTerm_bit {e : BitVec F.EW} (h : (exponentTerm F e).getLsbD i = true) : F.FW ≤ i ∧ i ≤ F.W - 2 := by
  rw [exponentTerm, BitVec.getLsbD_shiftLeft, BitVec.getLsbD_setWidth, Bool.and_eq_true, Bool.and_eq_true,
    Bool.and_eq_true, Bool.not_eq_true', decide_eq_false_iff_not] at h
  obtain ⟨⟨-, above⟩, -, bit⟩ := h
  have below := BitVec.lt_of_getLsbD bit
  have width := W_eq_sum F
  omega

theorem fractionTerm_bit {f : BitVec F.FW} (h : (fractionTerm F f).getLsbD i = true) : i ≤ F.FW - 1 := by
  rw [fractionTerm, BitVec.getLsbD_setWidth, Bool.and_eq_true] at h
  have below := BitVec.lt_of_getLsbD h.2
  omega

end

/-- Settles O7: the or of the terms is `PACK` of the fields, and each term has bits in its own place only. -/
theorem fieldsPartitionRaw : Obligations.FieldsPartitionRaw :=
  fun F v => ⟨(pack_extract F v).symm, fun _ _ => ⟨signTerm_bit, exponentTerm_bit, fractionTerm_bit⟩⟩

theorem and_eq_zero_of_no_common_bit {n : Nat} {x y : BitVec n}
    (h : ∀ i, x.getLsbD i = true → y.getLsbD i = true → False) : x &&& y = 0#n := by
  apply BitVec.eq_of_getLsbD_eq
  intro i _
  rw [BitVec.getLsbD_and, BitVec.getLsbD_zero, Bool.and_eq_false_imp]
  exact fun hx => Bool.eq_false_iff.mpr (h i hx)

section
variable (F : Format) (s : BitVec 1) (e : BitVec F.EW) (f : BitVec F.FW)

/-- `FW` is not 0, so the fraction has a top bit below the exponent's lowest. -/
theorem FW_pos : 0 < F.FW := by cases F <;> decide

theorem signTerm_and_exponentTerm : signTerm F s &&& exponentTerm F e = 0#F.W := by
  refine and_eq_zero_of_no_common_bit fun i hs he => ?_
  have sign := signTerm_bit hs
  obtain ⟨-, exponent⟩ := exponentTerm_bit he
  have width := W_eq_sum F
  have := FW_pos F
  have : 0 < F.EW := by cases F <;> decide
  omega

theorem signTerm_and_fractionTerm : signTerm F s &&& fractionTerm F f = 0#F.W := by
  refine and_eq_zero_of_no_common_bit fun i hs hf => ?_
  have sign := signTerm_bit hs
  have fraction := fractionTerm_bit hf
  have width := W_eq_sum F
  have := FW_pos F
  omega

theorem exponentTerm_and_fractionTerm : exponentTerm F e &&& fractionTerm F f = 0#F.W := by
  refine and_eq_zero_of_no_common_bit fun i he hf => ?_
  obtain ⟨exponent, -⟩ := exponentTerm_bit he
  have fraction := fractionTerm_bit hf
  have := FW_pos F
  omega

end

/-- Settles O9: terms of any fields share no bit, and the or of a decode's terms is `PACK` of its fields. -/
theorem fieldTermsDisjoint : Obligations.FieldTermsDisjoint :=
  fun F v => ⟨signTerm_and_exponentTerm F _ _, signTerm_and_fractionTerm F _ _, exponentTerm_and_fractionTerm F _ _,
    pack_extract F v⟩

/-! ## The top bit inverted -/

section
variable (F : Format) (v : BitVec F.W)

theorem negate_bit {i : Nat} (h : i < F.W) :
    (negate F v).getLsbD i = (v.getLsbD i ^^ decide (i = F.W - 1)) := by
  have one_bit : (1#F.W <<< (F.W - 1)).getLsbD i = decide (i = F.W - 1) := by
    rw [BitVec.getLsbD_shiftLeft, BitVec.getLsbD_one, Bool.eq_iff_iff]
    simp only [Bool.and_eq_true, decide_eq_true_eq, Bool.not_eq_true', decide_eq_false_iff_not]
    omega
  rw [negate, BitVec.getLsbD_xor, one_bit]

/-- Below the top bit a slice of the negated pattern is the slice of the pattern. -/
theorem slice_negate {lo n : Nat} (h : lo + n ≤ F.W - 1) : (negate F v).extractLsb' lo n = v.extractLsb' lo n := by
  apply BitVec.eq_of_getLsbD_eq
  intro i hi
  have not_top : lo + i ≠ F.W - 1 := by omega
  rw [BitVec.getLsbD_extractLsb', BitVec.getLsbD_extractLsb', negate_bit F v (by omega), decide_eq_false not_top,
    Bool.xor_false]

theorem negate_exponent : (extract F (negate F v)).exponent = (extract F v).exponent := by
  rw [extract_exponent, extract_exponent, slice_negate]
  have width := W_eq_sum F
  omega

theorem negate_fraction : (extract F (negate F v)).fraction = (extract F v).fraction := by
  rw [extract_fraction, extract_fraction, slice_negate]
  have width := W_eq_sum F
  omega

/-- On one bit, inverting is subtracting from 1. -/
theorem not_eq_one_sub (b : BitVec 1) : ~~~b = 1#1 - b := by revert b; decide

theorem negate_sign : (extract F (negate F v)).sign = 1#1 - (extract F v).sign := by
  have top : F.W - 1 < F.W := by cases F <;> decide
  rw [← not_eq_one_sub, extract_sign, extract_sign]
  apply BitVec.eq_of_getLsbD_eq
  intro i hi
  obtain rfl : i = 0 := by omega
  rw [BitVec.getLsbD_not, BitVec.getLsbD_extractLsb', BitVec.getLsbD_extractLsb', Nat.add_zero, negate_bit F v top]
  simp

theorem negate_raw_bit {i : Nat} (h : i < F.W) :
    (extract F (negate F v)).raw.getLsbD i = (extract F v).raw.getLsbD i ↔ i ≠ F.W - 1 := by
  rw [extract_raw, extract_raw, negate_bit F v h]
  cases v.getLsbD i <;> simp

end

/-- Settles O12: only bit `W - 1` differs, which is the sign; the class is a function of the two other fields. -/
theorem negationChangesSignOnly : Obligations.NegationChangesSignOnly := by
  intro F v
  have exponent := negate_exponent F v
  have fraction := negate_fraction F v
  exact ⟨negate_sign F v, exponent, fraction, rfl, by rw [exponent, fraction], fun _ => negate_raw_bit F v⟩

end Sys2Proof.Machine
end

section
/-! The request word and the operations, in both directions (`30_encoding.md` R50, R59), and the rows of the opcode table. -/

namespace Sys2Proof

open Machine

/-! ## The word of a request -/

theorem Request.ofWord_word (q : Request) : Request.ofWord q.word = q := by
  rw [Request.ofWord, q.word_fmt, q.word_inBits]

theorem Request.word_ofWord (w : ReqWord) : (Request.ofWord w).word = w := append_slices (b := 1) (c := 64) w

/-- A concatenation as a number. -/
theorem append_toNat {b c : Nat} (e : BitVec b) (f : BitVec c) : (e ++ f).toNat = e.toNat * 2 ^ c + f.toNat := by
  rw [BitVec.toNat_append, ← Nat.shiftLeft_add_eq_or_of_lt f.isLt, Nat.shiftLeft_eq]

/-- Settles O22: the two signals are the upper and the lower part of the word. -/
theorem requestWordHoldsBothSignals : Obligations.RequestWordHoldsBothSignals :=
  fun q => ⟨q.ofWord_word, append_toNat q.fmt q.inBits⟩

/-! ## Operations and words -/

section
variable (fmt : BitVec 1) (hi lo : BitVec 32)

@[simp] theorem Request.hi_append : Request.hi ⟨fmt, hi ++ lo⟩ = hi := slice_upper hi lo

@[simp] theorem Request.lo_append : Request.lo ⟨fmt, hi ++ lo⟩ = lo := slice_lower hi lo

theorem Request.hi_append_lo (q : Request) : q.hi ++ q.lo = q.inBits := append_slices (b := 32) (c := 32) q.inBits

/-- The word of `DEC32` is that of the request with `fmt` 0 and the two halves joined. -/
theorem encode_dec32 : encode (.dec32 hi lo) = Request.word ⟨0#1, hi ++ lo⟩ := BitVec.append_assoc

theorem encode_dec64 (v : BitVec 64) : encode (.dec64 v) = Request.word ⟨1#1, v⟩ := rfl

end

theorem decode_encode (i : Instr) : decode (encode i) = i := by
  cases i with
  | dec32 hi v => rw [encode_dec32, decode_word_fmt0 rfl, Request.hi_append, Request.lo_append]
  | dec64 v => rw [encode_dec64, decode_word_fmt1 rfl]

theorem encode_decode_word (q : Request) : encode (decode q.word) = q.word := by
  rcases fmt_cases q.fmt with h | h
  · rw [decode_word_fmt0 h, encode_dec32, q.hi_append_lo, ← h]
  · rw [decode_word_fmt1 h, encode_dec64, ← h]

theorem encode_decode (w : ReqWord) : encode (decode w) = w := by
  rw [← Request.word_ofWord w, encode_decode_word]

/-- Settles O19: an operation's word is the word of a request whose signals hold the operands. -/
theorem decodeOfEncodeIsOperation : Obligations.DecodeOfEncodeIsOperation := fun i _ => decode_encode i

/-- Settles O20: every word is the word of a request, and the operation of a request keeps all its bits. -/
theorem encodeOfDecodeIsWord : Obligations.EncodeOfDecodeIsWord := encode_decode

/-- Settles O23: the four words, evaluated. -/
theorem writtenWordsDecode : Obligations.WrittenWordsDecode := ⟨by decide, by decide, by decide, by decide⟩

/-! ## The opcode table -/

theorem wordInRow (i : Instr) : Laws.WordInRow.Statement i := by
  cases i with
  | dec32 hi v => exact Laws.WordInRow.dec32 hi v
  | dec64 v => exact Laws.WordInRow.dec64 v

theorem selects_iff_row (w : ReqWord) {r : TableRow} (hr : r ∈ opcodeTable) :
    r.selects w = decide (r = (decode w).row) := by
  have own := wordInRow (decode w) r hr
  rwa [encode_decode] at own

/-- An operation's row stands in the table once. -/
theorem filter_eq_row (i : Instr) : opcodeTable.filter (fun r => decide (r = i.row)) = [i.row] := by
  cases i <;> rfl

/-- Settles O21: a row of the table selects a word exactly when it is the row of the word's operation. -/
theorem everyWordSelectsExactlyOneRow : Obligations.EveryWordSelectsExactlyOneRow := by
  intro w
  rw [List.filter_congr fun _ => selects_iff_row w, filter_eq_row]

end Sys2Proof
end

section
/-! The output signals (`30_encoding.md` R54, R55, R61, R64; `41_classify.md` R84): the six values of a record of either
format, and that the five checks of a response accept these values and no others. -/

namespace Sys2Proof.Machine

/-- Settles O18: the codes are the table's, and no two are equal. -/
theorem classCodes : Obligations.ClassCodes := ⟨rfl, rfl, rfl, rfl, rfl, fun _ _ => FpClass_code_injective⟩

/-! ## The ports of a request -/

theorem resp_zero (x : BitVec 64) : resp ⟨0#1, x⟩ = toPorts (dec32 (x.extractLsb' 0 32)) := resp_fmt0 rfl

theorem resp_one (x : BitVec 64) : resp ⟨1#1, x⟩ = toPorts (dec64 x) := resp_fmt1 rfl

theorem toPorts_dec32 (v : BitVec 32) :
    toPorts (dec32 v) = ⟨32#7, 0#32 ++ v, v.extractLsb' 31 1, 0#3 ++ v.extractLsb' 23 8,
      0#29 ++ v.extractLsb' 0 23, (class32 (v.extractLsb' 23 8) (v.extractLsb' 0 23)).code⟩ := by
  rw [toPorts_f32, dec32_eq_slices]

theorem toPorts_dec64 (v : BitVec 64) :
    toPorts (dec64 v) = ⟨64#7, v, v.extractLsb' 63 1, v.extractLsb' 52 11, v.extractLsb' 0 52,
      (class64 (v.extractLsb' 52 11) (v.extractLsb' 0 52)).code⟩ := by
  rw [toPorts_f64, dec64_eq_slices]

/-- Settles O24: the ports of either decode, where the slices of the low half are slices of `in_bits`. -/
theorem portFunction : Obligations.PortFunction := by
  intro x
  refine ⟨?_, by rw [resp_one, toPorts_dec64]⟩
  rw [resp_zero, toPorts_dec32, BitVec.extractLsb'_extractLsb'_of_le (by omega),
    BitVec.extractLsb'_extractLsb'_of_le (by omega), BitVec.extractLsb'_extractLsb'_of_le (by omega)]

/-- Settles O28: the fields of a decode joined are its operand, and zero extension leaves the low bits. -/
theorem portRoundTrip : Obligations.PortRoundTrip := by
  intro x
  simp only [resp_zero, resp_one, toPorts_f32, toPorts_f64, slice_lower, dec32_raw, dec64_raw, and_true, true_and]
  exact ⟨dec64_fields_append x, dec32_fields_append (x.extractLsb' 0 32)⟩

/-- Settles O29: both values of `fmt`. -/
theorem widthOutput : Obligations.WidthOutput := by
  intro q
  rcases fmt_cases q.fmt with h | h
  · rw [resp_fmt0 h, h, toPorts_f32]; rfl
  · rw [resp_fmt1 h, h, toPorts_f64]; rfl

/-! ## The record behind the ports -/

theorem ofPorts_toPorts (F : Format) (r : FloatBits F) : ofPorts F (toPorts r) = r := by
  have fits : F.W ≤ 64 ∧ F.EW ≤ 11 ∧ F.FW ≤ 52 := by cases F <;> decide
  obtain ⟨raw, exponent, fraction⟩ := fits
  rw [ofPorts, toPorts, BitVec.setWidth_setWidth_of_le _ raw, BitVec.setWidth_setWidth_of_le _ exponent,
    BitVec.setWidth_setWidth_of_le _ fraction, BitVec.setWidth_eq, BitVec.setWidth_eq, BitVec.setWidth_eq]

/-- Settles O27: truncation undoes zero extension, and the ports of a request are those of its decode. -/
theorem recordRecoveredFromPorts : Obligations.RecordRecoveredFromPorts :=
  ⟨ofPorts_toPorts, fun x => ⟨by rw [resp_zero, ofPorts_toPorts], by rw [resp_one, ofPorts_toPorts]⟩⟩

/-! ## The class code and the port values -/

section
variable {F : Format} (r : FloatBits F)

theorem toPorts_exponent_toNat : (toPorts r).exponent.toNat = r.exponent.toNat :=
  BitVec.toNat_setWidth_of_le (by cases F <;> decide)

theorem toPorts_fraction_toNat : (toPorts r).fraction.toNat = r.fraction.toNat :=
  BitVec.toNat_setWidth_of_le (by cases F <;> decide)

theorem toPorts_cls_iff (c : FpClass) : (toPorts r).cls = c.code ↔ ClassRow F r.exponent r.fraction c :=
  (show (classify F r.exponent r.fraction).code = c.code ↔ classify F r.exponent r.fraction = c from
    ⟨FpClass_code_injective, congrArg FpClass.code⟩).trans (classify_eq_iff c)

/-- The table of R84 on the ports of a record: zero extension keeps the numbers that the rows compare. -/
theorem toPorts_class_table {m : BitVec 11} (hm : m.toNat = F.eMax) :
    ((toPorts r).cls = 0#3 ↔ (toPorts r).exponent = 0#11 ∧ (toPorts r).fraction = 0#52) ∧
    ((toPorts r).cls = 1#3 ↔ (toPorts r).exponent = 0#11 ∧ (toPorts r).fraction ≠ 0#52) ∧
    ((toPorts r).cls = 2#3 ↔ 0#11 < (toPorts r).exponent ∧ (toPorts r).exponent < m) ∧
    ((toPorts r).cls = 3#3 ↔ (toPorts r).exponent = m ∧ (toPorts r).fraction = 0#52) ∧
    ((toPorts r).cls = 4#3 ↔ (toPorts r).exponent = m ∧ (toPorts r).fraction ≠ 0#52) := by
  simp only [ne_eq, ← BitVec.toNat_inj (n := 11), ← BitVec.toNat_inj (n := 52), BitVec.lt_def,
    toPorts_exponent_toNat, toPorts_fraction_toNat, hm, BitVec.toNat_zero]
  exact ⟨toPorts_cls_iff r .zero, toPorts_cls_iff r .subnormal, toPorts_cls_iff r .normal,
    toPorts_cls_iff r .infinity, toPorts_cls_iff r .nan⟩

end

/-- Settles O30: the table on the ports, with `E_MAX` of the format that `fmt` selects. -/
theorem classCodeOfPortValues : Obligations.ClassCodeOfPortValues := by
  rintro q eMax rfl
  rcases fmt_cases q.fmt with h | h
  · rw [resp_fmt0 h, h]
    exact toPorts_class_table (dec32 q.lo) rfl
  · rw [resp_fmt1 h, h]
    exact toPorts_class_table (dec64 q.inBits) rfl

/-! ## The five checks -/

/-- What the checks say of a response of width 32. -/
theorem wf_width32_iff (raw : BitVec 64) (s : BitVec 1) (e : BitVec 11) (f : BitVec 52) (c : BitVec 3) :
    Response.wf ⟨32#7, raw, s, e, f, c⟩ = true ↔
      c.toNat ≤ 4 ∧ (raw.extractLsb' 32 32 = 0#32 ∧ e.extractLsb' 8 3 = 0#3 ∧ f.extractLsb' 23 29 = 0#29) ∧
      s ++ e.extractLsb' 0 8 ++ f.extractLsb' 0 23 = raw.extractLsb' 0 32 ∧
      c = (class32 (e.extractLsb' 0 8) (f.extractLsb' 0 23)).code := by
  simp [Response.wf, Response.widthOk, Response.clsInRange, Response.paddingZero, Response.fieldsArePartition,
    Response.clsOfFields, and_assoc]

/-- What the checks say of a response of width 64. -/
theorem wf_width64_iff (raw : BitVec 64) (s : BitVec 1) (e : BitVec 11) (f : BitVec 52) (c : BitVec 3) :
    Response.wf ⟨64#7, raw, s, e, f, c⟩ = true ↔
      c.toNat ≤ 4 ∧ s ++ e ++ f = raw ∧ c = (class64 e f).code := by
  simp [Response.wf, Response.widthOk, Response.clsInRange, Response.paddingZero, Response.fieldsArePartition,
    Response.clsOfFields, and_assoc]

theorem width_of_wf {p : Response} (h : p.wf = true) : p.width = 32#7 ∨ p.width = 64#7 := by
  simp only [Response.wf, Response.widthOk, Bool.and_eq_true, Bool.or_eq_true, decide_eq_true_eq] at h
  obtain ⟨⟨⟨⟨width, -⟩, -⟩, -⟩, -⟩ := h
  exact width

theorem wf_toPorts_dec32 (v : BitVec 32) : (toPorts (dec32 v)).wf = true := by
  rw [toPorts_f32, wf_width32_iff]
  simp only [slice_upper, slice_lower, dec32_raw, and_true, true_and]
  exact ⟨FpClass_code_le_four _, dec32_fields_append v⟩

theorem wf_toPorts_dec64 (v : BitVec 64) : (toPorts (dec64 v)).wf = true := by
  rw [toPorts_f64, wf_width64_iff]
  exact ⟨FpClass_code_le_four _, dec64_fields_append v, rfl⟩

theorem resp_wf (q : Request) : (resp q).wf = true := by
  rcases fmt_cases q.fmt with h | h
  · rw [resp_fmt0 h]; exact wf_toPorts_dec32 q.lo
  · rw [resp_fmt1 h]; exact wf_toPorts_dec64 q.inBits

/-- A vector whose upper part is 0 is its lower part, zero-extended. -/
theorem zero_append_low_slice {b c : Nat} {v : BitVec (b + c)} (h : v.extractLsb' c b = 0#b) :
    0#b ++ v.extractLsb' 0 c = v := by rw [← h, append_slices]

/-- The ports of a pattern, from a partition of it into fields. -/
theorem toPorts_dec32_of_append {v : BitVec 32} {s : BitVec 1} {e : BitVec 8} {f : BitVec 23} (h : s ++ e ++ f = v) :
    toPorts (dec32 v) = ⟨32#7, 0#32 ++ v, s, 0#3 ++ e, 0#29 ++ f, (class32 e f).code⟩ := by
  rw [← h, dec32_append, toPorts_f32]

theorem toPorts_dec64_of_append {v : BitVec 64} {s : BitVec 1} {e : BitVec 11} {f : BitVec 52} (h : s ++ e ++ f = v) :
    toPorts (dec64 v) = ⟨64#7, v, s, e, f, (class64 e f).code⟩ := by
  rw [← h, dec64_append, toPorts_f64]

/-- A response that passes the checks is `RESP` of its `raw` in the format of its `width`: the partition says which
fields `raw` has, and the padding that the ports hold nothing else. -/
theorem eq_resp_of_wf {p : Response} (h : p.wf = true) :
    p = resp ⟨0#1, p.raw⟩ ∨ p = resp ⟨1#1, p.raw⟩ := by
  obtain ⟨w, raw, s, e, f, c⟩ := p
  obtain rfl | rfl : w = 32#7 ∨ w = 64#7 := width_of_wf h
  · obtain ⟨-, ⟨raw_upper, e_upper, f_upper⟩, partition, cls⟩ := (wf_width32_iff raw s e f c).mp h
    left
    rw [resp_zero, toPorts_dec32_of_append partition, zero_append_low_slice (b := 32) raw_upper,
      zero_append_low_slice (b := 3) e_upper, zero_append_low_slice (b := 29) f_upper, cls]
  · obtain ⟨-, partition, cls⟩ := (wf_width64_iff raw s e f c).mp h
    right
    rw [resp_one, toPorts_dec64_of_append partition, cls]

/-- Settles O31: the checks accept every `RESP`, and what they accept is `RESP` of its own `raw`. -/
theorem wellFormedIffSomeResponse : Obligations.WellFormedIffSomeResponse := by
  intro p
  constructor
  · intro h
    rcases eq_resp_of_wf h with hp | hp
    · exact ⟨_, hp.symm⟩
    · exact ⟨_, hp.symm⟩
  · rintro ⟨q, rfl⟩
    exact resp_wf q

/-- Settles O26: the checks of a response bound the code and the width, and with `fmt` 0 the ports are zero-extended. -/
theorem outputCodesThatNeverOccur : Obligations.OutputCodesThatNeverOccur := by
  intro q
  refine ⟨?_, width_of_wf (resp_wf q), fun h => ?_⟩
  · rcases fmt_cases q.fmt with h | h
    · rw [resp_fmt0 h]; exact FpClass_code_le_four _
    · rw [resp_fmt1 h]; exact FpClass_code_le_four _
  · rw [resp_fmt0 h, toPorts_f32]
    exact ⟨slice_upper 0#32 _, slice_upper 0#3 _, slice_upper 0#29 _⟩

end Sys2Proof.Machine
end

section
/-! Transactions (`70_reset_and_hazards.md` R120, R124, R127; `20_memory.md` R38): one operation, one step, the loading of
a request, runs, and the invariant of sound states. -/

namespace Sys2Proof.Machine

/-! ## One operation -/

/-- Settles O32: `exec` adds the operation's response, which is the ports of the decode. -/
theorem decThirtyTwoCompletes : Obligations.DecThirtyTwoCompletes := by
  intro hi v s
  rw [exec_eq_answer, answerOf, toPorts_dec32, State.answer]

/-- Settles O33: the same with the ports of the other decode. -/
theorem decSixtyFourCompletes : Obligations.DecSixtyFourCompletes := by
  intro v s
  rw [exec_eq_answer, answerOf, toPorts_dec64, State.answer]

/-- Settles O34: the next state of `exec` is `s` with one response read, which leaves every other field. -/
theorem operationsFrame : Obligations.OperationsFrame := by
  intro i s t h
  obtain rfl := exec_next_iff.mp h
  exact ⟨s.answer_block _, s.answer_inputs _, s.answer_outputs _, s.answer_pending _, answerOf i, s.answer_answered _⟩

/-- Settles O25: with `fmt` 0 the ports are those of the low half, and the operation's response has no use for `hi`. -/
theorem upperHalfIgnored : Obligations.UpperHalfIgnored := by
  intro h₁ h₂ lo
  refine ⟨by rw [resp_zero, resp_zero, slice_lower, slice_lower], fun s => ?_⟩
  rw [exec_eq_answer, exec_eq_answer, answerOf, answerOf]

/-! ## One step -/

/-- The decoded operation of a request gives the request's `RESP`. -/
theorem answerOf_decode_word (q : Request) : answerOf (decode q.word) = resp q := by
  rcases fmt_cases q.fmt with h | h
  · rw [decode_word_fmt0 h, resp_fmt0 h, answerOf]
  · rw [decode_word_fmt1 h, resp_fmt1 h, answerOf]

section
variable {s t : State} {q : Request} {rest : List Request}

theorem step_of_no_pending (h : s.pending = []) : step s = .next s := by rw [step, fetch_of_no_pending h]

theorem step_eq_exec (h : s.pending = q :: rest) : step s = exec (decode q.word) (s.present q rest) := by
  rw [step, fetch_of_pending h]

theorem step_of_pending (h : s.pending = q :: rest) : step s = .next ((s.present q rest).answer (resp q)) := by
  rw [step_eq_exec h, exec_eq_answer, answerOf_decode_word]

/-- What a step that answers `t` did: nothing, or one request presented and answered. -/
theorem step_next_cases (h : step s = .next t) :
    (s.pending = [] ∧ t = s) ∨ ∃ q rest, s.pending = q :: rest ∧ t = (s.present q rest).answer (resp q) := by
  rcases step_cases s with ⟨hp, hs⟩ | ⟨q, rest, hp, -⟩
  · exact .inl ⟨hp, Host.Outcome.next.inj (h.symm.trans hs)⟩
  · exact .inr ⟨q, rest, hp, Host.Outcome.next.inj (h.symm.trans (step_of_pending hp))⟩

end

/-- Whether a request is pending or not, a step answers a next state (`60_exceptions.md` R100). -/
theorem step_completes (s : State) : Completes (step s) := by
  rcases step_cases s with ⟨-, hs⟩ | ⟨q, rest, -, hs⟩
  · exact ⟨_, hs⟩
  · exact ⟨_, hs⟩

/-- Settles O37: `step` is `fetch` followed by `exec`. -/
theorem stepRunsDecodedOperation : Obligations.StepRunsDecodedOperation := by
  rintro s q rest i h rfl
  exact step_eq_exec h

/-- Settles O38: there is nothing to fetch. -/
theorem stepWithNoRequestLeft : Obligations.StepWithNoRequestLeft := fun _ => step_of_no_pending

/-- Settles O39: the step presents the request and reads its `RESP`, which the output signals carry. -/
theorem stepAnswersWithPortFunction : Obligations.StepAnswersWithPortFunction :=
  fun _ _ _ h => ⟨step_of_pending h, State.outputs_of_inputs _ _ rfl⟩

/-- Settles O40: the response that either step adds is `RESP` of `q`. -/
theorem responseDependsOnRequestAlone : Obligations.ResponseDependsOnRequestAlone :=
  fun _ _ q _ _ h h' => ⟨resp q, _, _, step_of_pending h, step_of_pending h', rfl, rfl⟩

/-- Settles O35: `exec` always answers, a step always answers, and with a request pending it adds the request's `RESP`. -/
theorem noFaultAndNoRefusal : Obligations.NoFaultAndNoRefusal :=
  ⟨fun i s => ⟨s.answer (answerOf i), answerOf i, exec_eq_answer i s, s.answer_answered _⟩, step_completes,
    fun _ q _ h => ⟨_, resp q, step_of_pending h, rfl⟩⟩

/-- Settles O36: the type has one constructor without fields, and a step writes only the host's side. -/
theorem blockHasOneState : Obligations.BlockHasOneState := by
  refine ⟨fun _ _ => rfl, fun s t h => ?_⟩
  obtain ⟨-, rfl⟩ | ⟨q, rest, -, rfl⟩ := step_next_cases h
  · rfl
  · rw [State.answer_block, State.present_block]

/-! ## Loading a request -/

theorem tableReqWord_of_lt {nbits w : Nat} (hn : 65 ≤ nbits) (hw : w < 2 ^ 65) :
    tableReqWord nbits w = .ok (BitVec.ofNat 65 w) := by
  have fits : w < 2 ^ nbits := hw.trans_le (Nat.pow_le_pow_right (by decide) hn)
  rw [tableReqWord, Nat.mod_eq_of_lt fits, reqWordOfNat_of_lt hw]

theorem tableReqWord_of_wide {nbits w : Nat} (h : 2 ^ 65 ≤ w % 2 ^ nbits) :
    tableReqWord nbits w = .error .widerThanRequestWord := if_neg h.not_gt

section
variable {nbits w : Nat} {r : ReqWord} {e : DecodeError} (s : State)

theorem decodeTableWord_of_ok (h : tableReqWord nbits w = .ok r) : decodeTableWord nbits w = some (decode r) := by
  rw [decodeTableWord, h]

theorem decodeTableWord_of_error (h : tableReqWord nbits w = .error e) : decodeTableWord nbits w = none := by
  rw [decodeTableWord, h]

theorem State.withFetchWord_of_ok (h : tableReqWord nbits w = .ok r) :
    s.withFetchWord nbits w = s.load (Request.ofWord r) := by rw [State.withFetchWord, h]

theorem State.withFetchWord_of_error (h : tableReqWord nbits w = .error e) : s.withFetchWord nbits w = s := by
  rw [State.withFetchWord, h]

end

/-- A loaded request is the one that the next step runs. -/
theorem step_load (s : State) (q : Request) :
    step (s.load q) = exec (decode q.word) { s with inputs := some q } := step_eq_exec (s.load_pending q)

/-- Settles O47: the number is a request word, and the word of the request made from it is that word. -/
theorem loadedWordRunsNext : Obligations.LoadedWordRunsNext := by
  intro s nbits w hn hw
  have read := tableReqWord_of_lt hn hw
  have word := Request.word_ofWord (BitVec.ofNat 65 w)
  refine ⟨decodeTableWord_of_ok read, _, word, ?_⟩
  rw [s.withFetchWord_of_ok read, step_load, word]

/-- Settles O48: the refusal, and what the decoder and the load do with one. -/
theorem widerNumbersRefused : Obligations.WiderNumbersRefused := by
  intro s nbits w h
  have refusal := tableReqWord_of_wide h
  exact ⟨refusal, decodeTableWord_of_error refusal, s.withFetchWord_of_error refusal⟩

/-! ## Sound states -/

theorem State.Legal.answer_resp {s : State} (h : s.Legal) (q : Request) : (s.answer (resp q)).Legal := by
  intro r hr
  rw [State.answer_answered, List.mem_append, List.mem_singleton] at hr
  obtain old | rfl := hr
  · exact h r old
  · exact resp_wf q

theorem State.Current.answer_resp {s : State} {q : Request} (h : s.inputs = some q) : (s.answer (resp q)).Current := by
  rw [State.Current, State.answer_outputs, State.outputs_of_inputs s q h, State.answer_answered,
    List.getLast?_concat]

/-- Settles O44: a step that does something adds the `RESP` of the request it puts on the inputs, which passes the checks
and is what the outputs then carry. -/
theorem stepKeepsSound : Obligations.StepKeepsSound := by
  intro s t sound h
  obtain ⟨-, rfl⟩ | ⟨q, rest, -, rfl⟩ := step_next_cases h
  · exact sound
  · have presented : (s.present q rest).Legal := sound.legal
    exact ⟨presented.answer_resp q, State.Current.answer_resp (s.present_inputs q rest)⟩

/-- Settles O45: no response was read, and the outputs carry none. -/
theorem resetIsSound : Obligations.ResetIsSound :=
  ⟨fun _ h => absurd h List.not_mem_nil, by rw [State.Current, State.outputs, State.reset_inputs]; rfl⟩

/-- Settles O46: the fields of the reset state. -/
theorem resetHasNoHistory : Obligations.ResetHasNoHistory :=
  ⟨State.reset_inputs, by rw [State.outputs, State.reset_inputs]; rfl, State.reset_pending, State.reset_answered,
    fun _ => rfl⟩

/-! ## Runs -/

theorem run_of_no_pending {s : State} (h : s.pending = []) (n : Nat) :
    Host.Core.run Sys2Proof.core n s = .next s := by
  induction n with
  | zero => rfl
  | succ n ih => rw [run_succ n (step_of_no_pending h), ih]

/-- Settles O41: the first step answers the request, and the idle steps after it change nothing. -/
theorem heldRequestKeepsResponse : Obligations.HeldRequestKeepsResponse := by
  intro s q n h
  refine ⟨(s.present q []).answer (resp q), ?_, rfl, State.outputs_of_inputs _ q rfl, rfl⟩
  rw [run_succ n (step_of_pending h)]
  exact run_of_no_pending rfl n

/-- Settles O42, by induction on the number of steps: idle once the list is used up, and else the first request, then a
run over the rest. -/
theorem runAnswersEveryRequest : Obligations.RunAnswersEveryRequest := by
  intro n
  induction n with
  | zero => exact fun s => ⟨s, rfl, rfl, rfl, (List.append_nil _).symm⟩
  | succ n ih =>
    intro s
    cases h : s.pending with
    | nil => exact ⟨s, run_of_no_pending h (n + 1), rfl, h, (List.append_nil _).symm⟩
    | cons q rest =>
      obtain ⟨t, run, block, pending, answered⟩ := ih ((s.present q rest).answer (resp q))
      refine ⟨t, (run_succ n (step_of_pending h)).trans run, block, pending, ?_⟩
      rw [answered, State.answer_answered, List.append_assoc]
      rfl

/-- A run over the whole list, from a state with no responses yet, answers each request with its `RESP`. -/
theorem run_whole_list {s : State} (h : s.answered = []) :
    ∃ t : State, Host.Core.run Sys2Proof.core s.pending.length s = .next t ∧ t.answered = s.pending.map resp := by
  obtain ⟨t, run, -, -, answered⟩ := runAnswersEveryRequest s.pending.length s
  rw [h, List.take_length, List.nil_append] at answered
  exact ⟨t, run, answered⟩

/-- Settles O43: the list of pairs is the image of the list of requests, so it is permuted with it. -/
theorem anyOrderSameResponses : Obligations.AnyOrderSameResponses := by
  intro s s' h h' perm
  obtain ⟨t, run, answered⟩ := run_whole_list h
  obtain ⟨t', run', answered'⟩ := run_whole_list h'
  refine ⟨t, t', run, run', ?_, by rw [answered, List.length_map], by rw [answered', List.length_map]⟩
  rw [answered, answered', ← List.map_prod_left_eq_zip, ← List.map_prod_left_eq_zip]
  exact perm.map _

end Sys2Proof.Machine
end

section
/-! The rows of the classification table counted (`41_classify.md` R83): one row for every pair of fields, and each row as
a range of exponents times a range of fractions. -/

namespace Sys2Proof.Machine

/-- Settles O16: a row applies exactly where its class is given, and `classify` gives one class. -/
theorem exactlyOneRowApplies : Obligations.ExactlyOneRowApplies := by
  intro F e f
  obtain ⟨-, -, table⟩ := classificationTable
  obtain ⟨zero, subnormal, normal, infinity, nan⟩ := table F e f
  simp only [← zero, ← subnormal, ← normal, ← infinity, ← nan]
  cases classify F e f <;> rfl

/-! ## Ranges of bit vectors -/

/-- The number of a bit vector is at least `lo` and below `hi`. -/
def InRange {n : Nat} (lo hi : Nat) (x : BitVec n) : Prop := lo ≤ x.toNat ∧ x.toNat < hi

theorem inRange_zero_iff {n : Nat} {x : BitVec n} : InRange 0 1 x ↔ x.toNat = 0 := by
  rw [InRange]; omega

theorem inRange_nonzero_iff {n : Nat} {x : BitVec n} : InRange 1 (2 ^ n) x ↔ x.toNat ≠ 0 := by
  have := x.isLt
  rw [InRange]; omega

theorem inRange_all {n : Nat} (x : BitVec n) : InRange 0 (2 ^ n) x := ⟨Nat.zero_le _, x.isLt⟩

theorem inRange_single_iff {n m : Nat} {x : BitVec n} : InRange m (m + 1) x ↔ x.toNat = m := by
  rw [InRange]; omega

/-- The bit vectors of a range and the numbers of it. -/
def rangeEquiv {n lo hi : Nat} (h : hi ≤ 2 ^ n) : { x : BitVec n // InRange lo hi x } ≃ Finset.Ico lo hi where
  toFun x := ⟨x.1.toNat, Finset.mem_Ico.mpr x.2⟩
  invFun k := ⟨BitVec.ofNat n k.1, by
    have bounds := Finset.mem_Ico.mp k.2
    rwa [InRange, BitVec.toNat_ofNat, Nat.mod_eq_of_lt (bounds.2.trans_le h)]⟩
  left_inv x := Subtype.ext ((BitVec.ofNat_toNat n x.1).trans (BitVec.setWidth_eq x.1))
  right_inv k := Subtype.ext ((BitVec.toNat_ofNat k.1 n).trans
    (Nat.mod_eq_of_lt ((Finset.mem_Ico.mp k.2).2.trans_le h)))

theorem card_inRange {n lo hi : Nat} (h : hi ≤ 2 ^ n) : Nat.card { x : BitVec n // InRange lo hi x } = hi - lo := by
  rw [Nat.card_congr (rangeEquiv h), Nat.card_eq_fintype_card, Fintype.card_coe, Nat.card_Ico]

/-! ## Pairs of fields per class -/

/-- The pairs of a class, where the class is a range of exponents times a range of fractions. -/
theorem card_class_of_ranges {F : Format} {c : FpClass} {elo ehi flo fhi : Nat} (he : ehi ≤ 2 ^ F.EW)
    (hf : fhi ≤ 2 ^ F.FW) (h : ∀ e f, ClassRow F e f c ↔ InRange elo ehi e ∧ InRange flo fhi f) :
    Nat.card { p : BitVec F.EW × BitVec F.FW // classify F p.1 p.2 = c } = (ehi - elo) * (fhi - flo) := by
  have product := Equiv.subtypeEquivRight (fun p : BitVec F.EW × BitVec F.FW => (classify_eq_iff c).trans (h p.1 p.2))
  rw [Nat.card_congr (product.trans Equiv.subtypeProdEquivProd), Nat.card_prod, card_inRange he, card_inRange hf]

section
variable (F : Format)

theorem card_class_zero : Nat.card { p : BitVec F.EW × BitVec F.FW // classify F p.1 p.2 = .zero } = 1 :=
  card_class_of_ranges (elo := 0) (ehi := 1) (flo := 0) (fhi := 1) Nat.one_le_two_pow Nat.one_le_two_pow
    fun _ _ => and_congr inRange_zero_iff.symm inRange_zero_iff.symm

theorem card_class_subnormal :
    Nat.card { p : BitVec F.EW × BitVec F.FW // classify F p.1 p.2 = .subnormal } = 2 ^ F.FW - 1 :=
  (card_class_of_ranges (c := .subnormal) (elo := 0) (ehi := 1) (flo := 1) Nat.one_le_two_pow le_rfl
    fun _ _ => and_congr inRange_zero_iff.symm inRange_nonzero_iff.symm).trans (Nat.one_mul _)

theorem card_class_normal :
    Nat.card { p : BitVec F.EW × BitVec F.FW // classify F p.1 p.2 = .normal } = (F.eMax - 1) * 2 ^ F.FW :=
  card_class_of_ranges (flo := 0) (F.eMax_succ ▸ Nat.le_succ _) le_rfl
    fun _ f => (and_iff_left (inRange_all f)).symm

theorem card_class_infinity : Nat.card { p : BitVec F.EW × BitVec F.FW // classify F p.1 p.2 = .infinity } = 1 := by
  rw [card_class_of_ranges (c := .infinity) (elo := F.eMax) (flo := 0) (fhi := 1) F.eMax_succ.le Nat.one_le_two_pow
    fun _ _ => and_congr inRange_single_iff.symm inRange_zero_iff.symm, Nat.add_sub_cancel_left]

theorem card_class_nan : Nat.card { p : BitVec F.EW × BitVec F.FW // classify F p.1 p.2 = .nan } = 2 ^ F.FW - 1 := by
  rw [card_class_of_ranges (c := .nan) (elo := F.eMax) (flo := 1) F.eMax_succ.le le_rfl
    fun _ _ => and_congr inRange_single_iff.symm inRange_nonzero_iff.symm, Nat.add_sub_cancel_left, Nat.one_mul]

/-! ## Patterns per class -/

/-- A pattern as its exponent and fraction, and its sign. -/
def fieldsEquiv : BitVec F.W ≃ (BitVec F.EW × BitVec F.FW) × BitVec 1 where
  toFun v := (((extract F v).exponent, (extract F v).fraction), (extract F v).sign)
  invFun p := pack F p.2 p.1.1 p.1.2
  left_inv v := pack_extract F v
  right_inv p := by simp only [extract_pack]

theorem card_sign : Nat.card (BitVec 1) = 2 := by
  rw [Nat.card_congr BitVec.equivFin.toEquiv, Nat.card_fin, pow_one]

theorem card_patterns (c : FpClass) :
    Nat.card { v : BitVec F.W // classify F (extract F v).exponent (extract F v).fraction = c } =
      2 * Nat.card { p : BitVec F.EW × BitVec F.FW // classify F p.1 p.2 = c } := by
  have bySign : { v : BitVec F.W // classify F (extract F v).exponent (extract F v).fraction = c } ≃
      { p : BitVec F.EW × BitVec F.FW // classify F p.1 p.2 = c } × BitVec 1 :=
    ((fieldsEquiv F).subtypeEquiv fun _ => Iff.rfl).trans
      (Equiv.prodSubtypeFstEquivSubtypeProd (p := fun p => classify F p.1 p.2 = c))
  rw [Nat.card_congr bySign, Nat.card_prod, card_sign, Nat.mul_comm]

end

/-- Settles O17: each class is a product of two ranges, and a pattern is a sign with a pair of fields. -/
theorem classCounts : Obligations.ClassCounts :=
  fun F => ⟨card_class_zero F, card_class_subnormal F, card_class_normal F, card_class_infinity F, card_class_nan F,
    card_patterns F⟩

end Sys2Proof.Machine
end

section
/-! Storage bytes (`20_memory.md` R34): joined bytes are read back by slices, and a value is known by its byte slices. -/

namespace Sys2Proof.Machine

/-! ## Joined bytes -/

/-- The bytes joined from the last one, which comes out lowest. -/
theorem joinBytes_concat (W : Nat) (bs : List Byte) (b : Byte) :
    joinBytes W (bs ++ [b]) = joinBytes W bs <<< 8 ||| b.setWidth W := by
  rw [joinBytes, List.foldl_append]; rfl

/-- The lowest byte of a joined list is its last. -/
theorem joinBytes_slice_low {W : Nat} (bs : List Byte) (b : Byte) (h : 8 ≤ W) :
    (joinBytes W (bs ++ [b])).extractLsb' 0 8 = b := by
  apply BitVec.eq_of_getLsbD_eq
  intro i hi
  rw [joinBytes_concat, BitVec.getLsbD_extractLsb', BitVec.getLsbD_or, BitVec.getLsbD_shiftLeft,
    BitVec.getLsbD_setWidth, Nat.zero_add]
  simp [hi, show i < W by omega]

/-- Above its lowest byte a joined list is the list without its last byte, joined. -/
theorem joinBytes_slice_next {W : Nat} (bs : List Byte) (b : Byte) {k : Nat} (h : 8 * (k + 2) ≤ W) :
    (joinBytes W (bs ++ [b])).extractLsb' (8 * (k + 1)) 8 = (joinBytes W bs).extractLsb' (8 * k) 8 := by
  apply BitVec.eq_of_getLsbD_eq
  intro i hi
  have above : b.getLsbD (8 * (k + 1) + i) = false := BitVec.getLsbD_of_ge b _ (by omega)
  rw [joinBytes_concat, BitVec.getLsbD_extractLsb', BitVec.getLsbD_extractLsb', BitVec.getLsbD_or,
    BitVec.getLsbD_shiftLeft, BitVec.getLsbD_setWidth, above]
  simp [hi, show 8 * (k + 1) + i < W by omega, show ¬ 8 * (k + 1) + i < 8 by omega,
    show 8 * (k + 1) + i - 8 = 8 * k + i by omega]

/-- Byte `k` from the low end of a list joined in reverse is its element `k`. -/
theorem joinBytes_reverse_slice {W : Nat} (bs : List Byte) (k : Nat) (hk : k < bs.length) (h : 8 * (k + 1) ≤ W) :
    (joinBytes W bs.reverse).extractLsb' (8 * k) 8 = bs[k] := by
  induction bs generalizing k with
  | nil => exact absurd hk (Nat.not_lt_zero k)
  | cons b bs ih =>
    rw [List.reverse_cons]
    cases k with
    | zero => exact joinBytes_slice_low bs.reverse b (by omega)
    | succ k =>
      rw [joinBytes_slice_next bs.reverse b h]
      exact ih k (Nat.lt_of_succ_lt_succ hk) (by omega)

/-! ## The operand of bytes -/

section
variable {F : Format} (b : Vector Byte F.bytes) {k : Nat} (hk : k < F.bytes)

theorem bytesToRaw_little_slice : (bytesToRaw F .little b).extractLsb' (8 * k) 8 = b[k] := by
  have width := F.eight_mul_bytes
  rw [bytesToRaw, joinBytes_reverse_slice b.toList k (by rwa [Vector.length_toList]) (by omega), Vector.getElem_toList]

/-- In big order the operand is that of the reversed bytes in little order. -/
theorem bytesToRaw_big_eq_little : bytesToRaw F .big b = bytesToRaw F .little b.reverse := by
  rw [bytesToRaw, bytesToRaw, Vector.toList_reverse, List.reverse_reverse]

theorem bytesToRaw_big_slice : (bytesToRaw F .big b).extractLsb' (8 * (F.bytes - 1 - k)) 8 = b[k] := by
  have other_end : F.bytes - 1 - (F.bytes - 1 - k) = k := by omega
  rw [bytesToRaw_big_eq_little, bytesToRaw_little_slice b.reverse (by omega), Vector.getElem_reverse]
  simp only [other_end]

end

/-- Settles O49: the byte slices of the operand in either order. -/
theorem storageBytesInPlace : Obligations.StorageBytesInPlace :=
  fun _ b _ hk => ⟨bytesToRaw_little_slice b hk, bytesToRaw_big_slice b hk⟩

/-! ## The bytes of an operand -/

section
variable {F : Format} (v : BitVec F.W) {k : Nat} (hk : k < F.bytes)

theorem rawToBytes_little_getElem : (rawToBytes F .little v)[k] = v.extractLsb' (8 * k) 8 := by
  rw [rawToBytes, Vector.getElem_ofFn, BitVec.setWidth_ushiftRight_eq_extractLsb]

theorem rawToBytes_big_getElem : (rawToBytes F .big v)[k] = v.extractLsb' (8 * (F.bytes - 1 - k)) 8 := by
  rw [rawToBytes, Vector.getElem_ofFn, BitVec.setWidth_ushiftRight_eq_extractLsb]

theorem rawToBytes_bytesToRaw (o : HostByteOrder) (b : Vector Byte F.bytes) :
    rawToBytes F o (bytesToRaw F o b) = b := by
  apply Vector.ext
  intro k hk
  cases o with
  | little => rw [rawToBytes_little_getElem _ hk, bytesToRaw_little_slice b hk]
  | big => rw [rawToBytes_big_getElem _ hk, bytesToRaw_big_slice b hk]

/-- A value of whole bytes is known by them: bit `i` is bit `i % 8` of byte `i / 8`. -/
theorem eq_of_byte_slices_eq {W n : Nat} {v w : BitVec W} (hW : 8 * n = W)
    (h : ∀ k < n, v.extractLsb' (8 * k) 8 = w.extractLsb' (8 * k) 8) : v = w := by
  apply BitVec.eq_of_getLsbD_eq
  intro i hi
  have in_byte : i % 8 < 8 := Nat.mod_lt i (by decide)
  have bit := congrArg (·.getLsbD (i % 8)) (h (i / 8) (by omega))
  simpa only [BitVec.getLsbD_extractLsb', in_byte, decide_true, Bool.true_and, Nat.div_add_mod] using bit

/-- The bytes determine the operand, in either order. -/
theorem rawToBytes_injective (o : HostByteOrder) {v w : BitVec F.W} (h : rawToBytes F o v = rawToBytes F o w) :
    v = w := by
  apply eq_of_byte_slices_eq F.eight_mul_bytes
  intro k hk
  cases o with
  | little => rw [← rawToBytes_little_getElem v hk, ← rawToBytes_little_getElem w hk, h]
  | big =>
    have other_end : F.bytes - 1 - (F.bytes - 1 - k) = k := by omega
    have byte := rawToBytes_big_getElem v (k := F.bytes - 1 - k) (by omega)
    rw [h, rawToBytes_big_getElem w (by omega), other_end] at byte
    exact byte.symm

theorem bytesToRaw_rawToBytes (o : HostByteOrder) : bytesToRaw F o (rawToBytes F o v) = v :=
  rawToBytes_injective o (rawToBytes_bytesToRaw o _)

end

/-- Settles O50: each byte of the operand of bytes is in its place, and the bytes determine the operand. -/
theorem storageBytesRoundTrip : Obligations.StorageBytesRoundTrip :=
  fun _ o => ⟨fun v => bytesToRaw_rawToBytes v o, rawToBytes_bytesToRaw o⟩

end Sys2Proof.Machine
end

section
/-! The written form of a request (`30_encoding.md` R63): hexadecimal digits determine the number, and a port-level line
the operation. -/

namespace Sys2Proof.Machine

/-! ## Hexadecimal digits -/

theorem hexDigit_injective {m n : Nat} (hm : m < 16) (hn : n < 16) (h : hexDigit m = hexDigit n) : m = n := by
  have all : ∀ a < 16, ∀ b < 16, hexDigit a = hexDigit b → a = b := by decide
  exact all m hm n hn h

theorem hexDigits_length (n x : Nat) : (hexDigits n x).length = n := by
  induction n generalizing x with
  | zero => rfl
  | succ n ih => rw [hexDigits, List.length_append, ih, List.length_singleton]

theorem eq_hexDigit_of_mem_hexDigits {n x : Nat} {c : Char} (h : c ∈ hexDigits n x) : ∃ d < 16, c = hexDigit d := by
  induction n generalizing x with
  | zero => exact absurd h List.not_mem_nil
  | succ n ih =>
    rw [hexDigits, List.mem_append, List.mem_singleton] at h
    obtain upper | last := h
    · exact ih upper
    · exact ⟨x % 16, Nat.mod_lt x (by decide), last⟩

theorem hexDigits_injective {n x y : Nat} (hx : x < 16 ^ n) (hy : y < 16 ^ n) (h : hexDigits n x = hexDigits n y) :
    x = y := by
  induction n generalizing x y with
  | zero => rw [pow_zero, Nat.lt_one_iff] at hx hy; rw [hx, hy]
  | succ n ih =>
    rw [pow_succ'] at hx hy
    obtain ⟨upper, last⟩ := List.append_inj' h rfl
    have quotients := ih (Nat.div_lt_of_lt_mul hx) (Nat.div_lt_of_lt_mul hy) upper
    have remainders := hexDigit_injective (Nat.mod_lt x (by decide)) (Nat.mod_lt y (by decide))
      (List.singleton_inj.mp last)
    omega

/-! ## Literals and lines -/

section
variable {w n : Nat}

theorem hexLit_length (n : Nat) (v : BitVec w) : (hexLit n v).length = n + 2 := by
  rw [hexLit, List.length_append, hexDigits_length, Nat.add_comm]; rfl

/-- A literal with a digit for every four bits determines the value. -/
theorem hexLit_injective {v u : BitVec w} (hw : w = 4 * n) (h : hexLit n v = hexLit n u) : v = u := by
  have fits : 2 ^ w = 16 ^ n := by rw [hw, pow_mul]; rfl
  exact BitVec.eq_of_toNat_eq
    (hexDigits_injective (fits ▸ v.isLt) (fits ▸ u.isLt) (List.append_cancel_left h))

end

theorem requestText_dec32 (hi v : BitVec 32) :
    requestText (.dec32 hi v) = ['D', 'E', 'C', '3', '2', ' ', '0', 'x'] ++ hexDigits 8 v.toNat := rfl

theorem requestText_dec64 (v : BitVec 64) :
    requestText (.dec64 v) = ['D', 'E', 'C', '6', '4', ' ', '0', 'x'] ++ hexDigits 16 v.toNat := rfl

theorem requestText_dec32_injective {hi hi' v v' : BitVec 32}
    (h : requestText (.dec32 hi v) = requestText (.dec32 hi' v')) : v = v' :=
  hexLit_injective (n := 8) rfl (List.append_cancel_left h)

theorem requestText_dec64_injective {v v' : BitVec 64} (h : requestText (.dec64 v) = requestText (.dec64 v')) :
    v = v' :=
  hexLit_injective (n := 16) rfl (List.append_cancel_left h)

/-- The lines of the two operations differ in the fourth character. -/
theorem portRequestText_dec32_ne_dec64 (hi v : BitVec 32) (u : BitVec 64) :
    portRequestText (.dec32 hi v) ≠ portRequestText (.dec64 u) := by
  intro h
  have fourth : some '3' = some '6' := congrArg (·[3]?) h
  exact absurd fourth (by decide)

theorem portRequestText_injective {i j : Instr} (h : portRequestText i = portRequestText j) : i = j := by
  cases i with
  | dec32 hi v =>
    cases j with
    | dec32 hi' v' =>
      obtain ⟨front, his⟩ := List.append_inj' h (by rw [hexLit_length, hexLit_length])
      rw [requestText_dec32_injective (List.append_cancel_right front), hexLit_injective (n := 8) rfl his]
    | dec64 u => exact absurd h (portRequestText_dec32_ne_dec64 hi v u)
  | dec64 u =>
    cases j with
    | dec32 hi v => exact absurd h.symm (portRequestText_dec32_ne_dec64 hi v u)
    | dec64 u' => rw [requestText_dec64_injective h]

/-- Settles O51: a line is its mnemonic and the digits of the operand, and the digits of every operand come back from a
port-level line. -/
theorem writtenLineNamesOperation : Obligations.WrittenLineNamesOperation :=
  ⟨fun hi v => ⟨_, hexDigits_length 8 _, fun _ => eq_hexDigit_of_mem_hexDigits, requestText_dec32 hi v⟩,
    fun v => ⟨_, hexDigits_length 16 _, fun _ => eq_hexDigit_of_mem_hexDigits, requestText_dec64 v⟩,
    fun _ _ => portRequestText_injective⟩

end Sys2Proof.Machine
end
